-- ==== Sys2Proof/Word.lean ====
section
/-! DEFINITION. The words the unit moves: bytes, text, and the patterns of the three floating-point formats
with their widths (00_scope.md R7, R9, R11, R24). -/

namespace Sys2Proof

/-- One 8-bit word: a command word (R49), the STATUS register (R30), or one ASCII code of a string (R24). -/
abbrev Byte := BitVec 8

/-- A string: a finite sequence of 8-bit character codes, position 0 first (R9, R24, R42). -/
abbrev Text := List Byte

/-- The three formats the unit knows (R11): H and S are the result formats, D (binary64) the format of the
inputs of CVT and RUN and of the intermediate. -/
inductive Format where
  | H
  | S
  | D
  deriving DecidableEq, Repr

/-- Exponent-field width E of R11's table. -/
abbrev Format.E : Format → Nat
  | .H => 5
  | .S => 8
  | .D => 11

/-- Fraction-field width M of R11's table. -/
abbrev Format.M : Format → Nat
  | .H => 10
  | .S => 23
  | .D => 52

/-- Width w of R11's table. -/
abbrev Format.w : Format → Nat
  | .H => 16
  | .S => 32
  | .D => 64

/-- A bit pattern of format F: an unsigned word of the format's width (R7). -/
abbrev Pattern (F : Format) := BitVec F.w

end Sys2Proof
end

