-- ==== Sys2Proof/Syntax.lean ====
section
/-! DEFINITION. The commands of the unit as syntax: one constructor per row of spec/opcode_table.json, and the
raw fields of a command word (30_encoding.md R49 to R51). -/

namespace Sys2Proof

/-- PrecisionFormat (R2, R50): Half (H, FMT = 0) or Single (S, FMT = 1), the document's fixed enum. -/
inductive Prec where
  | H
  | S
  deriving DecidableEq, Repr

/-- The format a precision names (R11). -/
abbrev Prec.fmt : Prec → Format
  | .H => .H
  | .S => .S

/-- Operation (R2): the document's enum, shared by ADD, SUB, MUL, DIV and the four RUN commands. -/
inductive Op where
  | add
  | sub
  | mul
  | div
  deriving DecidableEq, Repr

/-- The commands (R51, R53). Operands come from the input ports (R54), so a command carries its precision only;
GRP takes none (R51). -/
inductive Instr where
  | add (f : Prec)
  | sub (f : Prec)
  | mul (f : Prec)
  | div (f : Prec)
  | cvt (f : Prec)
  | xtr (f : Prec)
  | grp
  | runAdd (f : Prec)
  | runSub (f : Prec)
  | runMul (f : Prec)
  | runDiv (f : Prec)
  deriving DecidableEq, Repr

/-- The three fields of any command word, valid or reserved (R49). -/
structure CmdWord where
  /-- RSV, bits [7:5]. -/
  rsv : BitVec 3
  /-- FMT, bit [4]. -/
  fmt : Bool
  /-- OP, bits [3:0]. -/
  op  : BitVec 4
  deriving DecidableEq, Repr

end Sys2Proof
end

