-- ==== Sys2Proof/WellFormed.lean ====
section
/-! DEFINITION. Which command words are well formed: the complement of the reserved words of 30_encoding.md R55,
one check for each of its three conditions. A term of `Instr` needs no check: its only field is a closed
type, and GRP carries none. -/

namespace Sys2Proof

/-- R55, first condition: a word with RSV ≠ 000 is reserved. -/
def CmdWord.rsvOk (c : CmdWord) : Bool := c.rsv == 0

/-- R55, second condition: a word with OP 0x7 or 0xC to 0xF is reserved. -/
def CmdWord.opOk (c : CmdWord) : Bool := c.op != 0x7 && decide (c.op.toNat < 0xC)

/-- R55, third condition: a word with OP = 0x6 (GRP) and FMT = 1 is reserved. -/
def CmdWord.fmtOk (c : CmdWord) : Bool := !(c.op == 0x6 && c.fmt)

/-- The word is none of the reserved words of R55. -/
def CmdWord.wellFormed (c : CmdWord) : Bool := c.rsvOk && c.opOk && c.fmtOk

end Sys2Proof
end

