-- ==== Sys2Proof/Decode.lean ====
section
/-! DEFINITION. The command decoder, total on all 256 words and rejecting by name (30_encoding.md R49, R52, R55),
the encoder written from the OP table (R51), and the document's command line as a pseudo-instruction (R57). -/

namespace Sys2Proof

/-- Why a word is reserved: the three conditions of R55. The unit reports all three alike (R89). -/
inductive Reserved where
  | rsvNonzero
  | opReserved
  | grpWithFmt
  deriving DecidableEq, Repr

/-- The fields of a command word (R49). -/
def CmdWord.ofByte (w : Byte) : CmdWord :=
  { rsv := w.extractLsb' 5 3, fmt := w.getLsbD 4, op := w.extractLsb' 0 4 }

/-- The word with the given fields (R49). -/
def CmdWord.toByte (c : CmdWord) : Byte := c.rsv ++ BitVec.ofBool c.fmt ++ c.op

/-- FMT selects the precision (R50): 0 is H, 1 is S. -/
def Prec.ofFmt (b : Bool) : Prec := if b then .S else .H

/-- The FMT bit of a precision (R50). -/
def Prec.bit : Prec → Bool
  | .H => false
  | .S => true

/-- The OP case of Decode (R52), for the OP value `op` and the FMT bit. -/
def decodeOp (op : Nat) (fmt : Bool) : Except Reserved Instr :=
  match op with
  | 0x0 => .ok (.add (.ofFmt fmt))
  | 0x1 => .ok (.sub (.ofFmt fmt))
  | 0x2 => .ok (.mul (.ofFmt fmt))
  | 0x3 => .ok (.div (.ofFmt fmt))
  | 0x4 => .ok (.cvt (.ofFmt fmt))
  | 0x5 => .ok (.xtr (.ofFmt fmt))
  | 0x6 => if fmt then .error .grpWithFmt else .ok .grp
  | 0x8 => .ok (.runAdd (.ofFmt fmt))
  | 0x9 => .ok (.runSub (.ofFmt fmt))
  | 0xA => .ok (.runMul (.ofFmt fmt))
  | 0xB => .ok (.runDiv (.ofFmt fmt))
  | _   => .error .opReserved

/-- Decode (R52). `.error` is the rule's Unsupported, with the condition of R55 that made the word reserved. -/
def decode (w : Byte) : Except Reserved Instr :=
  let c := CmdWord.ofByte w
  if c.rsv ≠ 0 then .error .rsvNonzero else decodeOp c.op.toNat c.fmt

/-- The OP value of a command (R51). -/
def Instr.op : Instr → BitVec 4
  | .add _    => 0x0
  | .sub _    => 0x1
  | .mul _    => 0x2
  | .div _    => 0x3
  | .cvt _    => 0x4
  | .xtr _    => 0x5
  | .grp      => 0x6
  | .runAdd _ => 0x8
  | .runSub _ => 0x9
  | .runMul _ => 0xA
  | .runDiv _ => 0xB

/-- The FMT bit of a command (R50); GRP's is 0 (R51). -/
def Instr.fmtBit : Instr → Bool
  | .add f | .sub f | .mul f | .div f | .cvt f | .xtr f => f.bit
  | .grp => false
  | .runAdd f | .runSub f | .runMul f | .runDiv f => f.bit

/-- The fields of a command's word: RSV = 000, FMT and OP from R51's table. -/
def Instr.fields (i : Instr) : CmdWord := { rsv := 0, fmt := i.fmtBit, op := i.op }

/-- The one word of a command (R49, R51). -/
def encode (i : Instr) : Byte := i.fields.toByte

/-- The instruction the decoder reads from a table row's word `w` of `nbits` bits. A command is one 8-bit word
(R49), so a number that does not fit 8 bits is no command word. -/
def decodeTableWord (nbits w : Nat) : Option Instr :=
  let b := w % 2 ^ nbits
  if b < 256 then
    match decode (BitVec.ofNat 8 b) with
    | .ok i    => some i
    | .error _ => none
  else none

/-- The CLI's `--bits` (R57). -/
def Prec.ofBits : Nat → Option Prec
  | 16 => some .H
  | 32 => some .S
  | _  => none

/-- The single arithmetic command of an operation at a precision (R51). -/
def Instr.single : Op → Prec → Instr
  | .add, f => .add f
  | .sub, f => .sub f
  | .mul, f => .mul f
  | .div, f => .div f

/-- The RUN command of an operation at a precision (R51, R85). -/
def Instr.run : Op → Prec → Instr
  | .add, f => .runAdd f
  | .sub, f => .runSub f
  | .mul, f => .runMul f
  | .div, f => .runDiv f

/-- The document's command line `A B --bits N [--op OP]` as the RUN command it stands for (R57): `--op` defaults
to `sum`, and the output-mode flags have no effect on the command. A `--bits` value that the CLI rejects
never reaches the unit. -/
def cliCommand (bits : Nat) (op : Option Op) : Option Instr :=
  (Prec.ofBits bits).map (Instr.run (op.getD .add))

end Sys2Proof
end

