-- ==== Sys2Proof/Config.lean ====
section
/-! DEFINITION. The parameters of the model that the spec leaves OPEN (00_scope.md R6, 93_implementation_defined.md
I1, I2, I6): opaque constants with no body, so nothing can be proved of their values. -/

namespace Sys2Proof

/-- GRP_MAX_CHARS (R6): unbounded, or a natural number ≥ 32, here written 32 + `above`. -/
inductive GrpMaxChars where
  | unbounded
  | bounded (above : Nat)
  deriving DecidableEq, Repr, Inhabited

namespace Config

/-- The unit's GRP_MAX_CHARS (R6, D13): OPEN. Log entry 4: DESIGN CHOICE, safe. -/
opaque grpMaxChars : GrpMaxChars

/-- The free bits of the unit's NaNPolicy.convNaN(Fs, Fd, x) (R19, D6): OPEN. `Machine.asNaN` turns them into a
NaN of Fd. Log entry 3: DESIGN CHOICE, safe. -/
opaque convNaNBits : (Fs Fd : Format) → Pattern Fs → Pattern Fd

/-- The free bits of the unit's NaNPolicy.defaultNaN(F) (R19, D6, D7): OPEN. Log entry 3: DESIGN CHOICE, safe. -/
opaque defaultNaNBits : (F : Format) → Pattern F

/-- The free bits of the unit's NaNPolicy.propNaN(F, x, y) (R19, D6): OPEN. Log entry 3: DESIGN CHOICE, safe. -/
opaque propNaNBits : (F : Format) → Pattern F → Pattern F → Pattern F

end Config

end Sys2Proof
end

