-- ==== Sys2Proof/Machine/Format.lean ====
section
/-! DEFINITION. Floating-point patterns: format parameters, fields, classes, values and constructors
(00_scope.md R11 to R15). -/

namespace Sys2Proof.Machine

/-- Precision p = M + 1 (R11). -/
def precision (F : Format) : Nat := F.M + 1

/-- bias = 2^(E-1) - 1 (R11). -/
def bias (F : Format) : ℤ := 2 ^ (F.E - 1) - 1

/-- emax = bias (R11). -/
def emax (F : Format) : ℤ := bias F

/-- emin = 1 - bias (R11). -/
def emin (F : Format) : ℤ := 1 - bias F

/-- sign(x) = x[w-1] (R12). -/
def sign {F : Format} (x : Pattern F) : Bool := x.getLsbD (F.w - 1)

/-- expf(x) = x[w-2:M], E bits (R12). -/
def expf {F : Format} (x : Pattern F) : BitVec F.E := x.extractLsb' F.M F.E

/-- frac(x) = x[M-1:0], M bits (R12). -/
def frac {F : Format} (x : Pattern F) : BitVec F.M := x.extractLsb' 0 F.M

/-- Class zero of R13. -/
def isZero {F : Format} (x : Pattern F) : Bool := (expf x).toNat == 0 && (frac x).toNat == 0

/-- Class subnormal of R13. -/
def isSub {F : Format} (x : Pattern F) : Bool := (expf x).toNat == 0 && (frac x).toNat != 0

/-- Class normal of R13. -/
def isNormal {F : Format} (x : Pattern F) : Bool :=
  decide (0 < (expf x).toNat) && decide ((expf x).toNat < 2 ^ F.E - 1)

/-- Class infinity of R13. -/
def isInf {F : Format} (x : Pattern F) : Bool := (expf x).toNat == 2 ^ F.E - 1 && (frac x).toNat == 0

/-- Class NaN of R13. -/
def isNaN {F : Format} (x : Pattern F) : Bool := (expf x).toNat == 2 ^ F.E - 1 && (frac x).toNat != 0

/-- A NaN is quiet when frac(x)[M-1] = 1 (R13). -/
def isQuiet {F : Format} (x : Pattern F) : Bool := isNaN x && (frac x).getLsbD (F.M - 1)

/-- Finite means zero, subnormal or normal (R13). -/
def isFinite {F : Format} (x : Pattern F) : Bool := isZero x || isSub x || isNormal x

/-- 2^k for an integer k, exactly (R8). -/
def pow2 : ℤ → ℚ
  | .ofNat n   => ((2 ^ n : ℕ) : ℚ)
  | .negSucc n => mkRat 1 (2 ^ (n + 1))

/-- (-1)^s (R14). -/
def signValue (s : Bool) : ℚ := if s then -1 else 1

/-- val(x) of a finite pattern (R14). Infinities and NaNs have no val; no rule asks for one, and the function
answers 0 there (log entry 9: DESIGN CHOICE, safe). -/
def val {F : Format} (x : Pattern F) : ℚ :=
  if isNormal x then
    signValue (sign x) * pow2 ((expf x).toNat - bias F) * (1 + (frac x).toNat / (2 ^ F.M : ℕ))
  else if isSub x then
    signValue (sign x) * pow2 (emin F) * ((frac x).toNat / (2 ^ F.M : ℕ))
  else 0

/-- The pattern s ++ e ++ f (R12); the resize changes nothing, since 1 + E + M = w. -/
def pack (F : Format) (s : Bool) (e : BitVec F.E) (f : BitVec F.M) : Pattern F :=
  (BitVec.ofBool s ++ e ++ f).setWidth F.w

/-- Zero(F, s) (R15). -/
def zero (F : Format) (s : Bool) : Pattern F := pack F s 0 0

/-- Inf(F, s) (R15). -/
def inf (F : Format) (s : Bool) : Pattern F := pack F s (BitVec.allOnes F.E) 0

/-- Neg(x) = NOT(x[w-1]) ++ x[w-2:0] (R15). -/
def neg {F : Format} (x : Pattern F) : Pattern F := pack F (!sign x) (expf x) (frac x)

end Sys2Proof.Machine
end

