-- ==== Sys2Proof/Machine/Nan.lean ====
section
/-! DEFINITION. NaN results: the NaNPolicy parameter, the unit's own (OPEN) policy and the reference policy
(00_scope.md R19, R20; 92_eei_decisions.md D6, D7). -/

namespace Sys2Proof.Machine

/-- NaNPolicy (R19): a record of three total functions. -/
structure NaNPolicy where
  convNaN    : (Fs Fd : Format) → Pattern Fs → Pattern Fd
  defaultNaN : (F : Format) → Pattern F
  propNaN    : (F : Format) → Pattern F → Pattern F → Pattern F

/-- All that R19 assumes of a policy: each function returns a NaN of the stated format, where R19 says it is used. -/
structure NaNPolicy.Lawful (P : NaNPolicy) : Prop where
  convNaN_isNaN    : ∀ Fs Fd (x : Pattern Fs), isNaN x = true → isNaN (P.convNaN Fs Fd x) = true
  defaultNaN_isNaN : ∀ F, isNaN (P.defaultNaN F) = true
  propNaN_isNaN    : ∀ F (x y : Pattern F), isNaN x = true ∨ isNaN y = true → isNaN (P.propNaN F x y) = true

/-- A NaN of F made from free bits: the sign and fraction as given, the exponent all ones, and a zero fraction
(which would be an infinity) replaced by the quiet bit. Every NaN of F is its own image, so no policy is
shut out (log entry 3: DESIGN CHOICE, safe). -/
def asNaN (F : Format) (bits : Pattern F) : Pattern F :=
  pack F (sign bits) (BitVec.allOnes F.E)
    (if frac bits = 0 then BitVec.twoPow F.M (F.M - 1) else frac bits)

/-- The unit's own NaNPolicy: OPEN (R6, D6), the free bits of Config made into NaNs. -/
def unitPolicy : NaNPolicy where
  convNaN Fs Fd x := asNaN Fd (Config.convNaNBits Fs Fd x)
  defaultNaN F    := asNaN F (Config.defaultNaNBits F)
  propNaN F x y   := asNaN F (Config.propNaNBits F x y)

/-- Quiet(F, x): x with bit M-1 set to 1 (R20). -/
def quiet {F : Format} (x : Pattern F) : Pattern F := x ||| BitVec.twoPow F.w (F.M - 1)

/-- The fraction of R20's convNaN: the top Md bits of the source fraction, or the fraction with zero bits appended. -/
def carryFraction (Fs Fd : Format) (f : Nat) : Nat :=
  if Fd.M ≤ Fs.M then f / 2 ^ (Fs.M - Fd.M) else f * 2 ^ (Fd.M - Fs.M)

/-- The reference NaNPolicy (R20), used by the spec's test vectors, for a value of DEFAULT_NAN_SIGN (R6, D7). The
unit's own policy is OPEN and is not this one. -/
def referencePolicy (defaultNaNSign : Bool) : NaNPolicy where
  convNaN Fs Fd x :=
    quiet (pack Fd (sign x) (BitVec.allOnes Fd.E) (BitVec.ofNat Fd.M (carryFraction Fs Fd (frac x).toNat)))
  defaultNaN F    := pack F defaultNaNSign (BitVec.allOnes F.E) (BitVec.twoPow F.M (F.M - 1))
  propNaN _ x y   := if isNaN x then quiet x else quiet y

end Sys2Proof.Machine
end

