-- ==== Sys2Proof/Machine/Round.lean ====
section
/-! DEFINITION. Rounding a positive rational to a format, to nearest with ties to even (00_scope.md R8, R16, R17). -/

namespace Sys2Proof.Machine

/-- floor_log2(m) for m > 0 (R8), from the bit lengths of numerator and denominator: the quotient of the two
leading powers is the answer or one above it. -/
def floorLog2 (m : ℚ) : ℤ :=
  let e : ℤ := (m.num.natAbs.log2 : ℤ) - (m.den.log2 : ℤ)
  if pow2 e ≤ m then e else e - 1

/-- RNEInt(q), for q ≥ 0 (R16). -/
def rneInt (q : ℚ) : ℕ :=
  let f := q.floor.toNat
  let r := q - f
  if r > 1 / 2 then f + 1
  else if r < 1 / 2 then f
  else if f % 2 = 0 then f
  else f + 1

/-- The exponent of the integer grid m is rounded on: floor_log2(m), but at least emin (R17). -/
def gridExp (F : Format) (m : ℚ) : ℤ := if floorLog2 m < emin F then emin F else floorLog2 m

/-- The last three lines of R17: the pattern of sign s and magnitude n * 2^(e - M), with overflow to infinity. -/
def packGrid (F : Format) (s : Bool) (e : ℤ) (n : ℕ) : Pattern F :=
  if e > emax F then inf F s
  else if n ≥ 2 ^ F.M then pack F s (BitVec.ofNat F.E (e + bias F).toNat) (BitVec.ofNat F.M (n - 2 ^ F.M))
  else pack F s 0 (BitVec.ofNat F.M n)

/-- RoundToFormat(F, s, m), for m > 0 (R17). -/
def roundToFormat (F : Format) (s : Bool) (m : ℚ) : Pattern F :=
  let e := gridExp F m
  let n := rneInt (m * pow2 (F.M - e))
  if n = 2 ^ (F.M + 1) then packGrid F s (e + 1) (2 ^ F.M)
  else packGrid F s e n

end Sys2Proof.Machine
end

