-- ==== Sys2Proof/Machine/Convert.lean ====
section
/-! DEFINITION. Conversions between formats: Widen and ConvertD (00_scope.md R21, R22), castToFormat of the document. -/

namespace Sys2Proof.Machine

/-- Widen(F, x): an H or S pattern to D (R21). -/
def widen (P : NaNPolicy) (F : Prec) (x : Pattern F.fmt) : Pattern .D :=
  if isNaN x then P.convNaN F.fmt .D x
  else if isInf x then inf .D (sign x)
  else if isZero x then zero .D (sign x)
  else roundToFormat .D (sign x) |val x|

/-- ConvertD(F, d): a D pattern to H or S with one rounding (R22). -/
def convertD (P : NaNPolicy) (F : Prec) (d : Pattern .D) : Pattern F.fmt :=
  if isNaN d then P.convNaN .D F.fmt d
  else if isInf d then inf F.fmt (sign d)
  else if isZero d then zero F.fmt (sign d)
  else roundToFormat F.fmt (sign d) |val d|

end Sys2Proof.Machine
end

