-- ==== Sys2Proof/Machine/Arith.lean ====
section
/-! DEFINITION. The binary64 operations and the two-step evaluation of ADD, SUB, MUL and DIV
(41_arith.md R63, R64, R66, R68, R70). -/

namespace Sys2Proof.Machine

/-- ADD64(x, y) (R64). -/
def add64 (P : NaNPolicy) (x y : Pattern .D) : Pattern .D :=
  if isNaN x || isNaN y then P.propNaN .D x y
  else if isInf x && isInf y then
    if sign x != sign y then P.defaultNaN .D else x
  else if isInf x then x
  else if isInf y then y
  else if isZero x && isZero y then zero .D (sign x && sign y)
  else
    let t := val x + val y
    if t = 0 then zero .D false else roundToFormat .D (decide (t < 0)) |t|

/-- SUB64(x, y) (R66): NaN operands go to propNaN with y as given, not negated. -/
def sub64 (P : NaNPolicy) (x y : Pattern .D) : Pattern .D :=
  if isNaN x || isNaN y then P.propNaN .D x y else add64 P x (neg y)

/-- MUL64(x, y) (R68). -/
def mul64 (P : NaNPolicy) (x y : Pattern .D) : Pattern .D :=
  if isNaN x || isNaN y then P.propNaN .D x y
  else
    let s := sign x ^^ sign y
    if (isInf x && isZero y) || (isZero x && isInf y) then P.defaultNaN .D
    else if isInf x || isInf y then inf .D s
    else if isZero x || isZero y then zero .D s
    else roundToFormat .D s |val x * val y|

/-- DIV64(x, y) (R70). -/
def div64 (P : NaNPolicy) (x y : Pattern .D) : Pattern .D :=
  if isNaN x || isNaN y then P.propNaN .D x y
  else
    let s := sign x ^^ sign y
    if isInf x && isInf y then P.defaultNaN .D
    else if isZero x && isZero y then P.defaultNaN .D
    else if isInf x then inf .D s
    else if isInf y then zero .D s
    else if isZero y then inf .D s
    else if isZero x then zero .D s
    else roundToFormat .D s |val x / val y|

/-- Op64(op, x, y): one binary64 operation, rounded once to binary64 (R63). -/
def op64 (P : NaNPolicy) : Op → Pattern .D → Pattern .D → Pattern .D
  | .add => add64 P
  | .sub => sub64 P
  | .mul => mul64 P
  | .div => div64 P

/-- Arith(op, F, a, b): widen both operands, one binary64 operation, one rounding to F (R63). The result is defined
by the two roundings (90_conflicts.md C2). -/
def arith (P : NaNPolicy) (op : Op) (F : Prec) (a b : Pattern F.fmt) : Pattern F.fmt :=
  convertD P F (op64 P op (widen P F a) (widen P F b))

end Sys2Proof.Machine
end

