-- ==== Sys2Proof/Machine/State.lean ====
section
/-! DEFINITION. The state of the unit: STATUS and the response registers (10_state.md R29, R30, R34, R35), the values
the host drives on the input ports (R28), and the host's coming interactions (70_reset_and_hazards.md R107);
what stops a step; the state after reset (R103). -/

namespace Sys2Proof.Machine

/-- The values on the input ports (R28). -/
structure Ports where
  /-- CMD, the command word (R49). -/
  cmd : Byte
  /-- A64, a binary64 pattern. -/
  a64 : BitVec 64
  /-- B64, a binary64 pattern. -/
  b64 : BitVec 64
  /-- XA, an H pattern in XA[15:0] or an S pattern. -/
  xa  : BitVec 32
  /-- XB, same layout as XA. -/
  xb  : BitVec 32
  /-- SIN, the input string of GRP. -/
  sin : Text
  deriving DecidableEq, Repr

/-- The response registers other than STATUS (R29). `none` is the spec's own state Unwritten (R10, R35). -/
structure Response where
  resR : Option (BitVec 32)
  resA : Option (BitVec 32)
  resB : Option (BitVec 32)
  txt0 : Option Text
  txt1 : Option Text
  txt2 : Option Text
  txt3 : Option Text
  txt4 : Option Text
  txt5 : Option Text
  deriving DecidableEq, Repr

/-- The names a host read can give (R29, R107). -/
inductive RegName where
  | status
  | resR
  | resA
  | resB
  | txt (k : Fin 6)
  deriving DecidableEq, Repr

/-- What a host read gets back (R107): the register's value, whole (R45). -/
inductive RegValue where
  | byte (v : Byte)
  | word (v : BitVec 32)
  | text (v : Text)
  deriving DecidableEq, Repr

/-- One interaction of the host with the unit: the three rows of R107. -/
inductive HostAction where
  /-- Present a command word and operands; the unit samples all the ports (R28, R36). -/
  | issue (p : Ports)
  /-- Read a response register (R35, R45). -/
  | read (r : RegName)
  /-- Reset the unit (R103, R104). -/
  | reset
  deriving DecidableEq, Repr

/-- STATUS.KIND (R31): which response registers the last command wrote. -/
inductive Kind where
  | none
  | num
  | xtr
  | grp
  | run
  deriving DecidableEq, Repr

/-- The unit's two errors (R89). -/
inductive CmdError where
  /-- UnsupportedOperation, STATUS.ERR = UNSUP (R90). -/
  | unsup
  /-- MalformedInput, STATUS.ERR = MALFORMED (R91). -/
  | malformed
  deriving DecidableEq, Repr

/-- The unit and its host side. `status` and `resp` are the spec's architectural state (R29; R38: nothing else of the
unit is observable). `ports`, `host` and `delivered` are the model's own fields (log entry 1: DESIGN CHOICE, safe): the
spec's inputs and the host, held as plain data so that one deterministic step can read them. -/
structure State where
  /-- STATUS (R30). -/
  status : Byte
  /-- RES_R, RES_A, RES_B, TXT[0] to TXT[5] (R29). -/
  resp : Response
  /-- The port values of the command being executed, sampled at its issue (R28). -/
  ports : Ports
  /-- The host's coming interactions, the next one first (R107). -/
  host : List HostAction
  /-- What the host's reads got back, the newest first (R107, R109). -/
  delivered : List RegValue
  deriving DecidableEq, Repr

/-- What stops the machine. -/
inductive Fault where
  /-- Raised by a host read of a response register that is Unwritten (R35, R106, D18, I9: "fault"). Safe: the
  model stops where a real unit might return some value. -/
  | unwrittenRead (r : RegName)
  deriving DecidableEq, Repr

/-- Why a command has no meaning. -/
inductive Refusal where
  /-- Raised only by an arm of exec whose command has no meaning yet; every command has one. Safe: the model stops
  where the unit goes on. -/
  | notModelled (mnemonic : String)
  deriving DecidableEq, Repr

/-- Every response register but STATUS Unwritten (R35). -/
def Response.unwritten : Response :=
  { resR := none, resA := none, resB := none,
    txt0 := none, txt1 := none, txt2 := none, txt3 := none, txt4 := none, txt5 := none }

/-- The ports before the host has driven any: all zero bits and the empty string (log entry 2: DESIGN CHOICE,
unsafe; the spec gives the ports no reset value, R103). -/
def Ports.idle : Ports := { cmd := 0, a64 := 0, b64 := 0, xa := 0, xb := 0, sin := [] }

/-- The machine after reset (R103): STATUS = 0x00, every other response register Unwritten. No host interaction is
pending and none has happened. -/
def State.reset : State :=
  { status := 0x00, resp := .unwritten, ports := .idle, host := [], delivered := [] }

end Sys2Proof.Machine
end

