-- ==== Sys2Proof/Machine/Operands.lean ====
section
/-! DEFINITION. The operands of a command, read from the sampled input ports (10_state.md R28; 30_encoding.md R54). -/

namespace Sys2Proof.Machine

/-- XA[w-1:0]: the first operand of ADD, SUB, MUL, DIV and XTR. For H, XA[31:16] is ignored (R28). -/
def operandXA (F : Prec) (s : State) : Pattern F.fmt := s.ports.xa.setWidth F.fmt.w

/-- XB[w-1:0]: the second operand of ADD, SUB, MUL and DIV. For H, XB[31:16] is ignored (R28). -/
def operandXB (F : Prec) (s : State) : Pattern F.fmt := s.ports.xb.setWidth F.fmt.w

/-- A64[63:0]: the operand of CVT and the first operand of RUN. -/
def operandA64 (s : State) : Pattern .D := s.ports.a64

/-- B64[63:0]: the second operand of RUN. -/
def operandB64 (s : State) : Pattern .D := s.ports.b64

/-- SIN: the operand of GRP. -/
def operandSIN (s : State) : Text := s.ports.sin

/-- zext_32 of a pattern, the layout of RES_R, RES_A and RES_B (R32). -/
def resultWord (F : Prec) (r : Pattern F.fmt) : BitVec 32 := r.setWidth 32

end Sys2Proof.Machine
end

