-- ==== Sys2Proof/Machine/Flags.lean ====
section
/-! DEFINITION. STATUS: its fields, codes and the bytes a command leaves in it (10_state.md R30, R31; 30_encoding.md
R52). The unit has no condition codes and no IEEE-754 flags (R27). -/

namespace Sys2Proof.Machine

/-- The KIND codes of R31. -/
def Kind.code : Kind → BitVec 3
  | .none => 0
  | .num  => 1
  | .xtr  => 2
  | .grp  => 3
  | .run  => 4

/-- The ERR codes of R31. -/
def CmdError.code : CmdError → BitVec 2
  | .unsup     => 1
  | .malformed => 2

/-- STATUS = 00 ++ KIND ++ ERR ++ VALID; bits [7:6] are hardwired 0 (R30). -/
def statusByte (kind : BitVec 3) (err : BitVec 2) (valid : Bool) : Byte :=
  (0 : BitVec 2) ++ kind ++ err ++ BitVec.ofBool valid

/-- STATUS after a command of kind k that completed with its result (R36, last line). -/
def statusDone (k : Kind) : Byte := statusByte k.code 0 true

/-- STATUS after a command that completed with an error (R36). -/
def statusError (e : CmdError) : Byte := statusByte Kind.none.code e.code true

/-- STATUS.VALID, bit [0] (R30). -/
def State.valid (s : State) : Bool := s.status.getLsbD 0

/-- STATUS.ERR, bits [2:1] (R30). -/
def State.err (s : State) : BitVec 2 := s.status.extractLsb' 1 2

/-- STATUS.KIND, bits [5:3] (R30). -/
def State.kindField (s : State) : BitVec 3 := s.status.extractLsb' 3 3

/-- kind(d) of a decoded command (R52, R31). -/
def kindOf : Instr → Kind
  | .add _ | .sub _ | .mul _ | .div _ | .cvt _ => .num
  | .xtr _ => .xtr
  | .grp => .grp
  | .runAdd _ | .runSub _ | .runMul _ | .runDiv _ => .run

/-- The registers that STATUS.KIND names as written (R31, R106); STATUS itself always holds a value (R35). -/
def Kind.writes : Kind → RegName → Bool
  | _,    .status => true
  | .none, _      => false
  | .num, .resR   => true
  | .num, _       => false
  | .xtr, .txt k  => decide (k.val ≤ 1)
  | .xtr, _       => false
  | .grp, .txt k  => decide (k.val = 0)
  | .grp, _       => false
  | .run, _       => true

end Sys2Proof.Machine
end

