-- ==== Sys2Proof/Machine/Ops.lean ====
section
/-! DEFINITION. The shared operations over the response registers: completing a command with its outputs or with an
error, reset, and a host read (10_state.md R35, R36; 60_exceptions.md R89 to R94; 70_reset_and_hazards.md R103,
R107). -/

namespace Sys2Proof.Machine

/-- End a command of kind k with the outputs r (R36): every register that r does not write is Unwritten, because r
is built from `Response.unwritten`. -/
def State.complete (s : State) (k : Kind) (r : Response) : State := { s with status := statusDone k, resp := r }

/-- End a command of kind NUM: RES_R holds the result, all else is Unwritten (R31, R36). -/
def State.completeNum (s : State) (v : BitVec 32) : State :=
  s.complete .num { Response.unwritten with resR := some v }

/-- End a command with an error (R36, R90, R91): the unit's whole error mechanism. There is no trap, no saved state
and no return (R94): every response register is Unwritten, STATUS carries the code, and the next command is
accepted normally. -/
def State.raise (s : State) (e : CmdError) : State := { s with status := statusError e, resp := .unwritten }

/-- Reset (R103, R104). The ports and the host are not the unit's state and are left alone. -/
def State.resetUnit (s : State) : State := { s with status := 0x00, resp := .unwritten }

/-- TXT[k] (R29). -/
def Response.txt (r : Response) : Fin 6 → Option Text
  | 0 => r.txt0
  | 1 => r.txt1
  | 2 => r.txt2
  | 3 => r.txt3
  | 4 => r.txt4
  | 5 => r.txt5

/-- The value of a register, or none where it is Unwritten (R35). -/
def State.readReg (s : State) : RegName → Option RegValue
  | .status => some (.byte s.status)
  | .resR   => s.resp.resR.map .word
  | .resA   => s.resp.resA.map .word
  | .resB   => s.resp.resB.map .word
  | .txt k  => (s.resp.txt k).map .text

/-- A host read (R107): the value goes to the host and no register changes (R45); an Unwritten register faults (R35). -/
def hostRead (r : RegName) (s : State) : Host.Outcome State Fault Refusal :=
  match s.readReg r with
  | some v => .next { s with delivered := v :: s.delivered }
  | none   => .fault (.unwrittenRead r)

/-- The unit samples all the ports at the issue of a command (R28, R36). -/
def State.sample (s : State) (p : Ports) : State := { s with ports := p }

/-- The observation of a command (R38): STATUS and every response register. -/
def State.observation (s : State) : Byte × Response := (s.status, s.resp)

end Sys2Proof.Machine
end

