-- ==== Sys2Proof/Machine/Codec.lean ====
section
/-! DEFINITION. The Float Codec's commands: CVT (40_convert.md R58) and ADD, SUB, MUL, DIV (41_arith.md R65, R67,
R69, R71). None raises an error and none writes a flag (R27, R92). -/

namespace Sys2Proof.Machine

/-- The common body of ADD, SUB, MUL and DIV: RES_R <- zext_32(Arith(op, F, a, b)); kind = NUM. -/
def runArith (op : Op) (F : Prec) (s : State) : State :=
  s.completeNum (resultWord F (arith unitPolicy op F (operandXA F s) (operandXB F s)))

/-- ADD.F (R65). -/
def execAdd (F : Prec) (s : State) : Host.Outcome State Fault Refusal := .next (runArith .add F s)

/-- SUB.F (R67). -/
def execSub (F : Prec) (s : State) : Host.Outcome State Fault Refusal := .next (runArith .sub F s)

/-- MUL.F (R69). -/
def execMul (F : Prec) (s : State) : Host.Outcome State Fault Refusal := .next (runArith .mul F s)

/-- DIV.F (R71). -/
def execDiv (F : Prec) (s : State) : Host.Outcome State Fault Refusal := .next (runArith .div F s)

/-- CVT.F (R58): one rounding of the binary64 operand (R59). -/
def execCvt (F : Prec) (s : State) : Host.Outcome State Fault Refusal :=
  .next (s.completeNum (resultWord F (convertD unitPolicy F (operandA64 s))))

end Sys2Proof.Machine
end

