-- ==== Sys2Proof/Machine/Chars.lean ====
section
/-! DEFINITION. Characters and the strings of XTR and GRP (00_scope.md R9, R23, R24; 42_extract.md R76;
43_group.md R80). -/

namespace Sys2Proof.Machine

/-- A Lean string as a string of ASCII codes (R24), for writing strings of the unit's alphabet down. -/
def ascii (s : String) : Text := s.toList.map fun c => BitVec.ofNat 8 c.toNat

/-- `' '` (R24). -/
def spaceChar : Byte := 0x20

/-- `'0'` (R24). -/
def zeroChar : Byte := 0x30

/-- `'x'` (R24). -/
def xChar : Byte := 0x78

/-- HexDigit(v): lowercase (R23, R24). -/
def hexDigit (v : BitVec 4) : Byte :=
  if v.toNat < 10 then BitVec.ofNat 8 (0x30 + v.toNat) else BitVec.ofNat 8 (0x61 + (v.toNat - 10))

/-- BitChar(b) (R23, R24). -/
def bitChar (b : Bool) : Byte := if b then 0x31 else 0x30

/-- The character is one of `'0'`-`'9'`, `'a'`-`'f'` (R23, R24). -/
def isHexChar (c : Byte) : Bool :=
  (decide (0x30 ≤ c.toNat) && decide (c.toNat ≤ 0x39)) || (decide (0x61 ≤ c.toNat) && decide (c.toNat ≤ 0x66))

/-- The character is `'0'` or `'1'`. -/
def isBinChar (c : Byte) : Bool := c == 0x30 || c == 0x31

/-- HexValue(c), for a character c of `isHexChar` (R23). -/
def hexValue (c : Byte) : BitVec 4 :=
  if c.toNat ≤ 0x39 then BitVec.ofNat 4 (c.toNat - 0x30) else BitVec.ofNat 4 (c.toNat - 0x61 + 10)

/-- The unit's alphabet (R24): the hexadecimal digits, `'x'` and space. -/
def inAlphabet (c : Byte) : Bool := isHexChar c || c == xChar || c == spaceChar

/-- hexString of XTR: `"0x"`, then one digit for each nibble, the most significant first (R76). -/
def hexString (F : Format) (x : Pattern F) : Text :=
  [zeroChar, xChar] ++ (List.range (F.w / 4)).reverse.map fun i => hexDigit (x.extractLsb' (4 * i) 4)

/-- binString of XTR: one character for each bit, the sign bit first (R76). -/
def binString (F : Format) (x : Pattern F) : Text :=
  (List.range F.w).reverse.map fun i => bitChar (x.getLsbD i)

/-- The four BitChars of a hexadecimal digit's value, v[3] first (R80). -/
def nibbleChars (c : Byte) : Text :=
  let v := hexValue c
  [bitChar (v.getLsbD 3), bitChar (v.getLsbD 2), bitChar (v.getLsbD 1), bitChar (v.getLsbD 0)]

/-- The binary string b of R80 that GRP groups, or none where R80 raises MalformedInput for the characters. -/
def groupSource (s : Text) : Option Text :=
  match s with
  | c0 :: c1 :: h =>
    if c0 = zeroChar ∧ c1 = xChar then
      if h.length = 0 then none
      else if h.all isHexChar then some (h.flatMap nibbleChars)
      else none
    else if s.all isBinChar then some s
    else none
  | _ => if s.all isBinChar then some s else none

/-- Consecutive runs of 4 characters from the left; the last may be shorter (R80). -/
def runsOf4 : Text → List Text
  | a :: b :: c :: d :: rest => [a, b, c, d] :: runsOf4 rest
  | []   => []
  | last => [last]

/-- The runs joined with single spaces (R80). -/
def groupRuns (b : Text) : Text := List.intercalate [spaceChar] (runsOf4 b)

end Sys2Proof.Machine
end

