-- ==== Sys2Proof/Machine/Formatter.lean ====
section
/-! DEFINITION. XTR (42_extract.md R76) and the Bit Formatter's GRP (43_group.md R80). -/

namespace Sys2Proof.Machine

/-- XTR.F (R76): the stored bits of the operand, whatever they are (R78). -/
def execXtr (F : Prec) (s : State) : Host.Outcome State Fault Refusal :=
  .next (s.complete .xtr
    { Response.unwritten with
      txt0 := some (hexString F.fmt (operandXA F s)), txt1 := some (binString F.fmt (operandXA F s)) })

/-- A string of n characters is longer than GRP_MAX_CHARS (R80). The parameter is at least 32 (R6), so 32 characters
or fewer never are. -/
def tooLong (limit : GrpMaxChars) (n : Nat) : Bool :=
  decide (32 < n) &&
    match limit with
    | .unbounded     => false
    | .bounded above => decide (32 + above < n)

/-- The grouped string of GRP(s), or none where R80 raises MalformedInput. -/
def groupString (limit : GrpMaxChars) (s : Text) : Option Text :=
  if tooLong limit s.length then none else (groupSource s).map groupRuns

/-- GRP (R80): the grouped string in TXT[0], or MalformedInput (R91). -/
def execGrp (s : State) : Host.Outcome State Fault Refusal :=
  match groupString Config.grpMaxChars (operandSIN s) with
  | some out => .next (s.complete .grp { Response.unwritten with txt0 := some out })
  | none     => .next (s.raise .malformed)

end Sys2Proof.Machine
end

