-- ==== Sys2Proof/Machine/Pipeline.lean ====
section
/-! DEFINITION. RUN.ADD, RUN.SUB, RUN.MUL, RUN.DIV: one whole invocation in one step (44_pipeline.md R85). -/

namespace Sys2Proof.Machine

/-- The outputs of RUN.op.F for the three values A, B and R (R85, R34). GRP of a binString always gives a string
(R86), so no text register is left Unwritten. -/
def runOutputs (F : Prec) (a b r : Pattern F.fmt) : Response :=
  { resR := some (resultWord F r)
    resA := some (resultWord F a)
    resB := some (resultWord F b)
    txt0 := some (hexString F.fmt a)
    txt1 := groupString Config.grpMaxChars (binString F.fmt a)
    txt2 := some (hexString F.fmt b)
    txt3 := groupString Config.grpMaxChars (binString F.fmt b)
    txt4 := some (hexString F.fmt r)
    txt5 := groupString Config.grpMaxChars (binString F.fmt r) }

/-- The common body of the four RUN commands (R85): convert both operands to F, apply op, render all three. -/
def runPipeline (op : Op) (F : Prec) (s : State) : State :=
  let a := convertD unitPolicy F (operandA64 s)
  let b := convertD unitPolicy F (operandB64 s)
  s.complete .run (runOutputs F a b (arith unitPolicy op F a b))

/-- RUN.ADD.F (R85). -/
def execRunAdd (F : Prec) (s : State) : Host.Outcome State Fault Refusal := .next (runPipeline .add F s)

/-- RUN.SUB.F (R85). -/
def execRunSub (F : Prec) (s : State) : Host.Outcome State Fault Refusal := .next (runPipeline .sub F s)

/-- RUN.MUL.F (R85). -/
def execRunMul (F : Prec) (s : State) : Host.Outcome State Fault Refusal := .next (runPipeline .mul F s)

/-- RUN.DIV.F (R85). -/
def execRunDiv (F : Prec) (s : State) : Host.Outcome State Fault Refusal := .next (runPipeline .div F s)

end Sys2Proof.Machine
end

