-- ==== Sys2Proof/Machine/Dispatch.lean ====
section
/-! DEFINITION. Execute of 10_state.md R36: one arm per command. -/

namespace Sys2Proof.Machine

/-- The effect of a decoded command on a state whose ports hold its sampled operands (R36). -/
def exec (i : Instr) (s : State) : Host.Outcome State Fault Refusal :=
  match i with
  | .add f => Sys2Proof.Machine.execAdd f s
  | .sub f => Sys2Proof.Machine.execSub f s
  | .mul f => Sys2Proof.Machine.execMul f s
  | .div f => Sys2Proof.Machine.execDiv f s
  | .cvt f => Sys2Proof.Machine.execCvt f s
  | .xtr f => Sys2Proof.Machine.execXtr f s
  | .grp => Sys2Proof.Machine.execGrp s
  | .runAdd f => Sys2Proof.Machine.execRunAdd f s
  | .runSub f => Sys2Proof.Machine.execRunSub f s
  | .runMul f => Sys2Proof.Machine.execRunMul f s
  | .runDiv f => Sys2Proof.Machine.execRunDiv f s

end Sys2Proof.Machine
end

