-- ==== Sys2Proof/Machine/Step.lean ====
section
/-! DEFINITION. One step: the next interaction of the host (70_reset_and_hazards.md R107), a command being one atomic
step (10_state.md R36). -/

namespace Sys2Proof.Machine

/-- The command step (R36): sample the ports, decode, and execute or raise UnsupportedOperation (R90). -/
def issueCommand (p : Ports) (s : State) : Host.Outcome State Fault Refusal :=
  match decode p.cmd with
  | .ok i    => exec i (s.sample p)
  | .error _ => .next ((s.sample p).raise .unsup)

/-- One step. With no interaction pending the unit is idle and keeps its registers (R102; log entry 7). -/
def step (s : State) : Host.Outcome State Fault Refusal :=
  match s.host with
  | []              => .next s
  | .issue p :: act => issueCommand p { s with host := act }
  | .read r :: act  => hostRead r { s with host := act }
  | .reset :: act   => .next ({ s with host := act }.resetUnit)

/-- s with one more interaction of the host, the very next: the issue of the command word w, the other ports as s
holds them. A program comes to run because the host issues its words one by one (log entry 5: DESIGN CHOICE, safe). -/
def State.withFetchWord (s : State) (nbits w : Nat) : State :=
  { s with host := .issue { s.ports with cmd := BitVec.ofNat 8 (w % 2 ^ nbits) } :: s.host }

end Sys2Proof.Machine
end

