-- ==== Sys2Proof/Machine/Assembler.lean ====
section
/-! DEFINITION. The assembly syntax of a command, `MNEMONIC[.FMT] operand, ...` (30_encoding.md R56): a line of text as
the port values of its issue. Syntax carries no behaviour of the unit (92_eei_decisions.md D26); what R56 leaves
open of it is log entry 8 (DESIGN CHOICE, unsafe). -/

namespace Sys2Proof.Machine

/-- The 21 commands (R53). -/
def allCommands : List Instr :=
  [Prec.H, Prec.S].flatMap (fun f =>
    [.add f, .sub f, .mul f, .div f, .cvt f, .xtr f, .runAdd f, .runSub f, .runMul f, .runDiv f]) ++ [.grp]

/-- `H` or `S` (R56). -/
def precSuffix : Prec → String
  | .H => ".H"
  | .S => ".S"

/-- MNEMONIC[.FMT] of a command (R56). -/
def asmName : Instr → String
  | .add f    => "ADD" ++ precSuffix f
  | .sub f    => "SUB" ++ precSuffix f
  | .mul f    => "MUL" ++ precSuffix f
  | .div f    => "DIV" ++ precSuffix f
  | .cvt f    => "CVT" ++ precSuffix f
  | .xtr f    => "XTR" ++ precSuffix f
  | .grp      => "GRP"
  | .runAdd f => "RUN.ADD" ++ precSuffix f
  | .runSub f => "RUN.SUB" ++ precSuffix f
  | .runMul f => "RUN.MUL" ++ precSuffix f
  | .runDiv f => "RUN.DIV" ++ precSuffix f

/-- Cut a text at the first occurrence of `sep`. -/
def cutAt (sep : Text) : Text → Option (Text × Text)
  | []      => none
  | c :: cs =>
    if sep.isPrefixOf (c :: cs) then some ([], (c :: cs).drop sep.length)
    else (cutAt sep cs).map fun r => (c :: r.1, r.2)

/-- A numeric operand: a hexadecimal literal `0x...` of at most `width`/4 digits, read as an unsigned pattern (R56). -/
def numOperand (width : Nat) (t : Text) : Option (BitVec width) :=
  match t with
  | c0 :: c1 :: h =>
    if c0 = zeroChar ∧ c1 = xChar ∧ h ≠ [] ∧ h.length ≤ width / 4 ∧ h.all isHexChar then
      some (BitVec.ofNat width (h.foldl (fun n c => 16 * n + (hexValue c).toNat) 0))
    else none
  | _ => none

/-- The character is a decimal digit. -/
def isDigit (c : Byte) : Bool := decide (0x30 ≤ c.toNat) && decide (c.toNat ≤ 0x39)

/-- The number a string of decimal digits denotes. -/
def digitsValue (t : Text) : Nat := t.foldl (fun n c => 10 * n + (c.toNat - 0x30)) 0

/-- An unsigned decimal literal, digits with or without a point and more digits, as an exact rational (R57; the form
is log entry 8). -/
def decimalMagnitude (t : Text) : Option ℚ :=
  match cutAt (ascii ".") t with
  | some (whole, part) =>
    if whole ≠ [] ∧ part ≠ [] ∧ whole.all isDigit ∧ part.all isDigit then
      some (mkRat (digitsValue (whole ++ part)) (10 ^ part.length))
    else none
  | none => if t ≠ [] ∧ t.all isDigit then some (digitsValue t) else none

/-- The binary64 pattern nearest to a magnitude of sign s, ties to even (R57); zero keeps the sign. -/
def nearestBinary64 (s : Bool) (m : ℚ) : Pattern .D := if m = 0 then zero .D s else roundToFormat .D s m

/-- A decimal literal with or without a minus sign, as the binary64 pattern it stands for (R57). -/
def decimalOperand (t : Text) : Option (BitVec 64) :=
  match t with
  | c :: rest =>
    if c = 0x2d then (decimalMagnitude rest).map (nearestBinary64 true)
    else (decimalMagnitude t).map (nearestBinary64 false)
  | [] => none

/-- A numeric operand of CVT or RUN: hexadecimal (R56) or decimal (R57). -/
def binary64Operand (t : Text) : Option (BitVec 64) :=
  match numOperand 64 t with
  | some v => some v
  | none   => decimalOperand t

/-- Two operands, separated by a comma and a space (R56). -/
def operandPair {width : Nat} (read : Text → Option (BitVec width)) (t : Text) :
    Option (BitVec width × BitVec width) :=
  match cutAt (ascii ", ") t with
  | some (x, y) =>
    match read x, read y with
    | some a, some b => some (a, b)
    | _, _           => none
  | none => none

/-- A GRP operand: a string in double quotes (R56). -/
def quotedOperand (t : Text) : Option Text :=
  match t with
  | c :: rest =>
    match rest.reverse with
    | d :: body => if c = 0x22 ∧ d = 0x22 ∧ !body.contains 0x22 then some body.reverse else none
    | []        => none
  | [] => none

/-- The ports of a command with the operands that the text gives, in the order of R54; a port the command does not
read keeps the value of `base` (R105). -/
def operandPorts (base : Ports) (i : Instr) (t : Text) : Option Ports :=
  match i with
  | .add _ | .sub _ | .mul _ | .div _ => (operandPair (numOperand 32) t).map fun v => { base with xa := v.1, xb := v.2 }
  | .cvt _ => (binary64Operand t).map fun v => { base with a64 := v }
  | .xtr _ => (numOperand 32 t).map fun v => { base with xa := v }
  | .grp => (quotedOperand t).map fun v => { base with sin := v }
  | .runAdd _ | .runSub _ | .runMul _ | .runDiv _ =>
    (operandPair binary64Operand t).map fun v => { base with a64 := v.1, b64 := v.2 }

/-- One assembly line as the port values the host presents for it (R56); none if the line is not of that syntax. -/
def assemble (base : Ports) (line : Text) : Option Ports :=
  match cutAt [spaceChar] line with
  | some (name, operands) =>
    match allCommands.find? (fun i => ascii (asmName i) == name) with
    | some i => (operandPorts base i operands).map fun p => { p with cmd := encode i }
    | none   => none
  | none => none

end Sys2Proof.Machine
end

