-- ==== Sys2Proof/Safety.lean ====
section
/-! DEFINITION. What a safe run is: a run that no fault or refusal stops, the duties of the host that keep it safe
(70_reset_and_hazards.md R106), and the unit's invariant (10_state.md R29, R30, R31, R34). -/

namespace Sys2Proof.Safety

open Sys2Proof.Machine

/-- No number of steps from s ends in a fault or a refusal. -/
def Safe (s : State) : Prop := ∀ n, ∃ t, Host.Core.run Sys2Proof.core n s = .next t

/-- The KIND of STATUS after the command whose ports are p (R31, R36): none after an error. -/
def kindAfter (p : Ports) : Kind :=
  match decode p.cmd with
  | .error _ => .none
  | .ok .grp => if (groupString Config.grpMaxChars p.sin).isSome then .grp else .none
  | .ok i    => kindOf i

/-- The host's duties 1 and 2 of R106 over its coming interactions, when STATUS.KIND is k: every read names a register
that the command before it wrote. -/
def Dutiful : Kind → List HostAction → Prop
  | _, []              => True
  | _, .issue p :: act => Dutiful (kindAfter p) act
  | k, .read r :: act  => k.writes r = true ∧ Dutiful k act
  | _, .reset :: act   => Dutiful .none act

/-- The unit's invariant. -/
structure UnitInv (s : State) : Prop where
  /-- STATUS bits [7:6] are hardwired 0 (R30). -/
  reserved : s.status.extractLsb' 6 2 = 0
  /-- If VALID = 0, then ERR = 0 and KIND = 0 (R30). -/
  notValid : s.valid = false → s.err = 0 ∧ s.kindField = 0
  /-- If ERR ≠ 0, then KIND = 0 (R30). -/
  error : s.err ≠ 0 → s.kindField = 0
  /-- The unit never writes ERR = 3 (R30). -/
  errCode : s.err ≠ 3
  /-- KIND is one of its codes, and exactly the registers it names hold values (R30, R31). -/
  written : ∃ k : Kind, s.kindField = k.code ∧ ∀ r, (s.readReg r).isSome = k.writes r
  /-- A text register holds a string over the alphabet (R34) of at most 39 characters, except TXT[0] after GRP (R29). -/
  texts : ∀ k t, s.resp.txt k = some t →
    t.all inAlphabet = true ∧ (t.length ≤ 39 ∨ (k = 0 ∧ s.kindField = Kind.grp.code))

end Sys2Proof.Safety
end

