-- ==== Sys2Proof/Certificates/Slice0/Obligations.lean ====
section
/-! DEFINITION. The statements for the provers: what the numbered rules of the spec say the unit does. -/

open Sys2Proof Sys2Proof.Machine Sys2Proof.Safety

/-! ### Command words (30_encoding.md) -/

/-- R53: the valid command words are exactly these 21, each with its instruction; every other word is Unsupported. -/
def Obligations.ValidCommandWordsAreTheseTwentyOne : Prop :=
  let table : List (Byte × Instr) :=
    [(0x00, .add .H), (0x01, .sub .H), (0x02, .mul .H), (0x03, .div .H), (0x04, .cvt .H), (0x05, .xtr .H),
     (0x06, .grp), (0x08, .runAdd .H), (0x09, .runSub .H), (0x0a, .runMul .H), (0x0b, .runDiv .H)] ++
    [(0x10, .add .S), (0x11, .sub .S), (0x12, .mul .S), (0x13, .div .S), (0x14, .cvt .S), (0x15, .xtr .S),
     (0x18, .runAdd .S), (0x19, .runSub .S), (0x1a, .runMul .S), (0x1b, .runDiv .S)]
  table.length = 21 ∧ (table.map Prod.fst).Nodup ∧ (∀ e ∈ table, decode e.1 = .ok e.2) ∧
    ∀ w, w ∉ table.map Prod.fst → ∃ r, decode w = .error r

/-- R55: which words are reserved, that they are 235 of the 256, and that issuing one sets STATUS.ERR = UNSUP and leaves
every output register Unwritten. -/
def Obligations.ReservedWordsRaiseUnsupported : Prop :=
  let reserved : Byte → Bool := fun w =>
    w.extractLsb' 5 3 != 0 || w.extractLsb' 0 4 == 0x7 || decide (0xC ≤ (w.extractLsb' 0 4).toNat) ||
      (w.extractLsb' 0 4 == 0x6 && w.getLsbD 4)
  (∀ w, reserved w = true ↔ ∃ r, decode w = .error r) ∧
  ((List.range 256).filter fun n => reserved (BitVec.ofNat 8 n)).length = 235 ∧
  ∀ s p act, s.host = .issue p :: act → reserved p.cmd = true →
    ∃ t, step s = .next t ∧ t.err = CmdError.unsup.code ∧ ∀ r, r ≠ .status → t.readReg r = none

/-- R90: the whole state after a reserved word, for any port values and any state before it. -/
def Obligations.UnsupportedReadsNoOperand : Prop :=
  ∀ s p act e, s.host = .issue p :: act → decode p.cmd = .error e →
    step s = .next { s with status := 0x03, resp := Response.unwritten, ports := p, host := act }

/-- Decode and encode agree on every word and every command, in both directions. -/
def Obligations.DecodeAndEncodeAgree : Prop :=
  (∀ w i, decode w = .ok i ↔ w = encode i) ∧ ∀ i, decodeTableWord 8 (encode i).toNat = some i

/-- R57 and R85's encoding line: the document's command line is one RUN command. -/
def Obligations.CliLineStandsForRun : Prop :=
  (∀ op, cliCommand 16 (some op) = some (Instr.run op .H) ∧ cliCommand 32 (some op) = some (Instr.run op .S)) ∧
  cliCommand 16 none = some (.runAdd .H) ∧ cliCommand 32 none = some (.runAdd .S) ∧
  (∀ n op, n ≠ 16 → n ≠ 32 → cliCommand n op = none) ∧
  ∀ F : Prec, [Op.add, .sub, .mul, .div].map (fun op => encode (Instr.run op F)) =
    match F with
    | .H => [0x08, 0x09, 0x0a, 0x0b]
    | .S => [0x18, 0x19, 0x1a, 0x1b]

/-- R56 and R57: their example lines, as the port values they stand for, and R57's decimal literals as the hexadecimal
ones they stand for. -/
def Obligations.AssemblyExamplesOfTheSpec : Prop :=
  ∀ base : Ports,
    assemble base (ascii "ADD.S 0x3f800000, 0x40000000") =
      some { base with cmd := 0x10, xa := 0x3f800000, xb := 0x40000000 } ∧
    assemble base (ascii "CVT.H 0x3ff0000000000000") = some { base with cmd := 0x04, a64 := 0x3ff0000000000000 } ∧
    assemble base (ascii "XTR.H 0x7c00") = some { base with cmd := 0x05, xa := 0x7c00 } ∧
    assemble base (ascii "GRP \"0x1\"") = some { base with cmd := 0x06, sin := [0x30, 0x78, 0x31] } ∧
    assemble base (ascii "RUN.DIV.H 0x3ff0000000000000, 0x0000000000000000") =
      some { base with cmd := 0x0b, a64 := 0x3ff0000000000000, b64 := 0 } ∧
    assemble base (ascii "RUN.ADD.S 1.0, 2.0") =
      some { base with cmd := 0x18, a64 := 0x3ff0000000000000, b64 := 0x4000000000000000 } ∧
    assemble base (ascii "RUN.ADD.S 1.0, 2.0") =
      assemble base (ascii "RUN.ADD.S 0x3ff0000000000000, 0x4000000000000000")

/-! ### The step and the host (10_state.md, 70_reset_and_hazards.md) -/

/-- R103: what reset leaves, in the state after reset and after a reset of any state; reset sets nothing else. -/
def Obligations.ResetLeavesRegistersUnwritten : Prop :=
  (State.reset.status = 0x00 ∧ ∀ r, r ≠ .status → State.reset.readReg r = none) ∧
  ∀ s act, s.host = .reset :: act →
    step s = .next { s with status := 0x00, resp := Response.unwritten, host := act }

/-- R36: when the word the host issues decodes to i, the step is exec of i with the ports sampled and the interaction
taken off the host's list (the list is the model's, log entry 1: DESIGN CHOICE). The second clause is about
`withFetchWord` and follows no rule: it is the model's choice (log entry 5: DESIGN CHOICE) that the word it places is
the very next command. -/
def Obligations.StepRunsDecodedCommand : Prop :=
  (∀ s p act i, s.host = .issue p :: act → decode p.cmd = .ok i →
    step s = exec i { s with ports := p, host := act }) ∧
  ∀ (s : State) (i : Instr),
    step (s.withFetchWord 8 (encode i).toNat) = exec i { s with ports := { s.ports with cmd := encode i } }

/-- R35, R45, R107: a host read delivers the register's value, the one held under its name (R29), and changes no
register; an Unwritten register faults. -/
def Obligations.HostReadDeliversOrFaults : Prop :=
  (∀ s r act, s.host = .read r :: act →
    (∀ v, s.readReg r = some v → step s = .next { s with host := act, delivered := v :: s.delivered }) ∧
    (s.readReg r = none → step s = .fault (.unwrittenRead r))) ∧
  ∀ s : State,
    s.readReg .status = some (.byte s.status) ∧
    s.readReg .resR = s.resp.resR.map .word ∧ s.readReg .resA = s.resp.resA.map .word ∧
    s.readReg .resB = s.resp.resB.map .word ∧
    s.readReg (.txt 0) = s.resp.txt0.map .text ∧ s.readReg (.txt 1) = s.resp.txt1.map .text ∧
    s.readReg (.txt 2) = s.resp.txt2.map .text ∧ s.readReg (.txt 3) = s.resp.txt3.map .text ∧
    s.readReg (.txt 4) = s.resp.txt4.map .text ∧ s.readReg (.txt 5) = s.resp.txt5.map .text

/-- Between commands the unit is idle (R102). That a step with no interaction of the host to come exists, and answers
the same state, is the model's choice and no rule's (log entry 7: DESIGN CHOICE). -/
def Obligations.IdleUnitKeepsRegisters : Prop := ∀ s, s.host = [] → step s = .next s

/-- R36, R31: every issue of any word completes, with STATUS the byte that the decoded command (or the error) gives. -/
def Obligations.EveryIssueCompletesWithItsStatus : Prop :=
  ∀ s p act, s.host = .issue p :: act →
    ∃ t, step s = .next t ∧ t.valid = true ∧ t.host = act ∧
      match decode p.cmd with
      | .error _ => t.status = 0x03
      | .ok .grp =>
        t.status = if (groupString Config.grpMaxChars p.sin).isSome then 0x19 else 0x05
      | .ok i =>
        t.status =
          match kindOf i with
          | .num => 0x09
          | .xtr => 0x11
          | _    => 0x21

/-- The frame of every command (R36, R94): the ports, the host's list and what was delivered are as before; a register
its kind does not name is Unwritten; without an error the registers its kind names hold values, with one none
does. -/
def Obligations.CommandFrame : Prop :=
  ∀ i s t, exec i s = .next t →
    t.ports = s.ports ∧ t.host = s.host ∧ t.delivered = s.delivered ∧
    (∀ r, (kindOf i).writes r = false → t.readReg r = none) ∧
    (t.err = 0 → ∀ r, (kindOf i).writes r = true → (t.readReg r).isSome = true) ∧
    (t.err ≠ 0 → i = .grp ∧ t.status = 0x05 ∧ ∀ r, r ≠ .status → t.readReg r = none)

/-- R37: two issues of the same command with the same port values leave the same observation, whatever the unit held
before. -/
def Obligations.OutputsDependOnPortsOnly : Prop :=
  ∀ s s' p act act' t t', s.host = .issue p :: act → s'.host = .issue p :: act' →
    step s = .next t → step s' = .next t' → t.observation = t'.observation

/-- R54, R105, R28: a command's observation depends on the port bits it reads and on no others; for H, XA[31:16] and
XB[31:16] are ignored. -/
def Obligations.UnreadPortBitsAreIgnored : Prop :=
  let same : Instr → Ports → Ports → Prop := fun i p q =>
    ∀ s t t' : State, exec i { s with ports := p } = .next t → exec i { s with ports := q } = .next t' →
      t.observation = t'.observation
  ∀ (F : Prec) (p q : Ports),
    (p.xa.setWidth F.fmt.w = q.xa.setWidth F.fmt.w → p.xb.setWidth F.fmt.w = q.xb.setWidth F.fmt.w →
      same (.add F) p q ∧ same (.sub F) p q ∧ same (.mul F) p q ∧ same (.div F) p q) ∧
    (p.xa.setWidth F.fmt.w = q.xa.setWidth F.fmt.w → same (.xtr F) p q) ∧
    (p.a64 = q.a64 → same (.cvt F) p q) ∧
    (p.sin = q.sin → same .grp p q) ∧
    (p.a64 = q.a64 → p.b64 = q.b64 →
      same (.runAdd F) p q ∧ same (.runSub F) p q ∧ same (.runMul F) p q ∧ same (.runDiv F) p q)

/-- The invariant holds after reset. -/
def Obligations.ResetStateHasInvariant : Prop := UnitInv State.reset

/-- R29, R30, R31, R34: every step of the machine keeps the invariant. -/
def Obligations.EveryStepKeepsInvariant : Prop := ∀ s t, UnitInv s → step s = .next t → UnitInv t

/-- R106: a host that reads only registers STATUS.KIND names as written is never stopped, however many steps it takes,
whatever it issues in between. -/
def Obligations.DutifulHostIsNeverStopped : Prop :=
  ∀ (s : State) (k : Kind), UnitInv s → s.kindField = k.code → Dutiful k s.host → Safe s

/-- R106 duty 2, R35: in a state that meets the invariant, a read of a register STATUS.KIND does not name faults. -/
def Obligations.ReadOutsideKindFaults : Prop :=
  ∀ (s : State) (k : Kind) r act, UnitInv s → s.kindField = k.code → s.host = .read r :: act → k.writes r = false →
    step s = .fault (.unwrittenRead r)

/-! ### The commands complete, with their results -/

/-- R63 with R64, R66, R68 and R70: ADD, SUB, MUL and DIV complete for every state, with RES_R as stated and all else
Unwritten. -/
def Obligations.ArithmeticCommandsComplete : Prop :=
  ∀ (F : Prec) (s : State),
    let x := widen unitPolicy F (s.ports.xa.setWidth F.fmt.w)
    let y := widen unitPolicy F (s.ports.xb.setWidth F.fmt.w)
    let done : Pattern .D → State := fun d =>
      { s with
        status := 0x09
        resp := { Response.unwritten with resR := some ((convertD unitPolicy F d).setWidth 32) } }
    exec (.add F) s = .next (done (add64 unitPolicy x y)) ∧
    exec (.sub F) s = .next (done (sub64 unitPolicy x y)) ∧
    exec (.mul F) s = .next (done (mul64 unitPolicy x y)) ∧
    exec (.div F) s = .next (done (div64 unitPolicy x y))

/-- R58: CVT completes for every state with RES_R <- zext_32(ConvertD(F, A64)) and all else Unwritten. -/
def Obligations.ConversionCommandCompletes : Prop :=
  ∀ (F : Prec) (s : State),
    exec (.cvt F) s = .next
      { s with
        status := 0x09
        resp := { Response.unwritten with resR := some ((convertD unitPolicy F s.ports.a64).setWidth 32) } }

/-- R76: XTR completes for every state with the two strings of the operand's stored bits. -/
def Obligations.ExtractionCommandCompletes : Prop :=
  ∀ (F : Prec) (s : State),
    let x : Pattern F.fmt := s.ports.xa.setWidth F.fmt.w
    exec (.xtr F) s = .next
      { s with
        status := 0x11
        resp := { Response.unwritten with txt0 := some (hexString F.fmt x), txt1 := some (binString F.fmt x) } }

/-- R80: GRP completes on both accepted forms, with the grouped string in TXT[0] and all else Unwritten. -/
def Obligations.GroupingCommandCompletes : Prop :=
  ∀ s : State, tooLong Config.grpMaxChars s.ports.sin.length = false →
    let done : Text → State := fun b =>
      { s with status := 0x19, resp := { Response.unwritten with txt0 := some (groupRuns b) } }
    ((∀ c ∈ s.ports.sin, c = 0x30 ∨ c = 0x31) → exec .grp s = .next (done s.ports.sin)) ∧
    ∀ h, s.ports.sin = 0x30 :: 0x78 :: h → h ≠ [] → (∀ c ∈ h, isHexChar c = true) →
      exec .grp s = .next (done (h.flatMap nibbleChars))

/-- R82, R91: GRP accepts exactly the two forms within GRP_MAX_CHARS; every other string raises MalformedInput, which
leaves STATUS = 0x05 and every other response register Unwritten. -/
def Obligations.GroupingAcceptsExactlyTwoForms : Prop :=
  ∀ s : State,
    let accepted : Prop :=
      ((∀ c ∈ s.ports.sin, c = 0x30 ∨ c = 0x31) ∨
        ∃ h, s.ports.sin = 0x30 :: 0x78 :: h ∧ h ≠ [] ∧
          ∀ c ∈ h, (0x30 ≤ c.toNat ∧ c.toNat ≤ 0x39) ∨ (0x61 ≤ c.toNat ∧ c.toNat ≤ 0x66)) ∧
      ∀ above, Config.grpMaxChars = .bounded above → s.ports.sin.length ≤ 32 + above
    (accepted → ∃ out, exec .grp s =
      .next { s with status := 0x19, resp := { Response.unwritten with txt0 := some out } }) ∧
    (¬accepted → exec .grp s = .next { s with status := 0x05, resp := Response.unwritten })

/-- R85: the four RUN commands complete for every state, with all nine outputs; each grouped string is a value. -/
def Obligations.RunCommandsComplete : Prop :=
  ∀ (F : Prec) (s : State),
    let a := convertD unitPolicy F s.ports.a64
    let b := convertD unitPolicy F s.ports.b64
    let done : Pattern F.fmt → State := fun r =>
      { s with
        status := 0x21
        resp :=
          { resR := some (r.setWidth 32), resA := some (a.setWidth 32), resB := some (b.setWidth 32),
            txt0 := some (hexString F.fmt a), txt1 := some (groupRuns (binString F.fmt a)),
            txt2 := some (hexString F.fmt b), txt3 := some (groupRuns (binString F.fmt b)),
            txt4 := some (hexString F.fmt r), txt5 := some (groupRuns (binString F.fmt r)) } }
    exec (.runAdd F) s = .next (done (arith unitPolicy .add F a b)) ∧
    exec (.runSub F) s = .next (done (arith unitPolicy .sub F a b)) ∧
    exec (.runMul F) s = .next (done (arith unitPolicy .mul F a b)) ∧
    exec (.runDiv F) s = .next (done (arith unitPolicy .div F a b))

/-- R87: RUN completes with STATUS = 0x21 for all operand pairs and both formats. -/
def Obligations.RunIsTotal : Prop :=
  ∀ s p act op F, s.host = .issue p :: act → p.cmd = encode (Instr.run op F) →
    ∃ t, step s = .next t ∧ t.status = 0x21 ∧ t.valid = true ∧ t.err = 0 ∧ t.kindField = Kind.run.code

/-- R32: after a command of format H, the upper halves of RES_R, RES_A and RES_B are zero. -/
def Obligations.HalfResultsAreZeroExtended : Prop :=
  ∀ i s t v, i ∈ [Instr.add .H, .sub .H, .mul .H, .div .H, .cvt .H, .runAdd .H, .runSub .H, .runMul .H, .runDiv .H] →
    exec i s = .next t → (t.resp.resR = some v ∨ t.resp.resA = some v ∨ t.resp.resB = some v) →
    v.extractLsb' 16 16 = 0

/-! ### Formats and rounding (00_scope.md) -/

/-- R12: a pattern is sign ++ exponent ++ fraction, as numbers. -/
def Obligations.PatternIsSignExponentFraction : Prop :=
  ∀ (F : Format) (x : Pattern F),
    x.toNat = (sign x).toNat * 2 ^ (F.w - 1) + (expf x).toNat * 2 ^ F.M + (frac x).toNat

/-- R13: every pattern belongs to exactly one of the five classes. -/
def Obligations.EveryPatternHasExactlyOneClass : Prop :=
  ∀ (F : Format) (x : Pattern F),
    [isZero x, isSub x, isNormal x, isInf x, isNaN x].count true = 1

/-- R15: the constructors' fields, Neg, and the patterns the rule lists. -/
def Obligations.ConstructorPatterns : Prop :=
  (∀ F s, sign (zero F s) = s ∧ (expf (zero F s)).toNat = 0 ∧ (frac (zero F s)).toNat = 0) ∧
  (∀ F s, sign (inf F s) = s ∧ (expf (inf F s)).toNat = 2 ^ F.E - 1 ∧ (frac (inf F s)).toNat = 0) ∧
  (∀ (F : Format) (x : Pattern F), neg x = x ^^^ BitVec.twoPow F.w (F.w - 1)) ∧
  zero .H false = 0x0000 ∧ zero .H true = 0x8000 ∧ inf .H false = 0x7c00 ∧ inf .H true = 0xfc00 ∧
  zero .S false = 0x00000000 ∧ zero .S true = 0x80000000 ∧ inf .S false = 0x7f800000 ∧ inf .S true = 0xff800000 ∧
  inf .D false = 0x7ff0000000000000

/-- R16: RNEInt goes to a nearest integer, and on a tie to the even one. -/
def Obligations.RneIntIsNearestTiesToEven : Prop :=
  ∀ q : ℚ, 0 ≤ q →
    |(rneInt q : ℚ) - q| ≤ 1 / 2 ∧ (|(rneInt q : ℚ) - q| = 1 / 2 → rneInt q % 2 = 0)

/-- R17: when RoundToFormat does not overflow, its result has sign s, is at least as near to (-1)^s * m as every finite
pattern of F, and on a tie with another value has an even fraction. Where it overflows: RoundingThresholds. -/
def Obligations.RoundingGivesNearestTiesToEven : Prop :=
  ∀ (F : Format) (s : Bool) (m : ℚ), 0 < m →
    let r := roundToFormat F s m
    let v := signValue s * m
    isInf r = false →
      isFinite r = true ∧ sign r = s ∧
      ∀ y : Pattern F, isFinite y = true →
        |val r - v| ≤ |val y - v| ∧
        (val y ≠ val r → |val r - v| = |val y - v| → (frac r).getLsbD 0 = false)

/-- R18: where RoundToFormat gives infinity and where it gives zero, and the values of the rule's table. -/
def Obligations.RoundingThresholds : Prop :=
  (∀ (F : Format) (s : Bool) (m : ℚ), 0 < m →
    (roundToFormat F s m = inf F s ↔ (2 - pow2 (-precision F)) * pow2 (emax F) ≤ m) ∧
    (isInf (roundToFormat F s m) = true → roundToFormat F s m = inf F s) ∧
    (roundToFormat F s m = zero F s ↔ m ≤ pow2 (emin F - F.M) / 2) ∧
    (isZero (roundToFormat F s m) = true → roundToFormat F s m = zero F s)) ∧
  (∀ F : Format, (2 - pow2 (-precision F)) * pow2 (emax F) =
    match F with
    | .H => 65520
    | .S => pow2 128 - pow2 103
    | .D => pow2 1024 - pow2 970) ∧
  (∀ F : Format, (2 - pow2 (-precision F)) * pow2 (emax F) =
    (2 - pow2 (-F.M)) * pow2 (emax F) + pow2 (emax F - F.M) / 2) ∧
  (∀ F : Format, pow2 (emin F - F.M) / 2 =
    match F with
    | .H => pow2 (-25)
    | .S => pow2 (-150)
    | .D => pow2 (-1075)) ∧
  (val (F := .H) 0x7bff = 65504 ∧ val (F := .S) 0x7f7fffff = (2 - pow2 (-23)) * pow2 127 ∧
    val (F := .D) 0x7fefffffffffffff = (2 - pow2 (-52)) * pow2 1023) ∧
  (val (F := .H) 0x0001 = pow2 (-24) ∧ val (F := .S) 0x00000001 = pow2 (-149) ∧
    val (F := .D) 0x0000000000000001 = pow2 (-1074)) ∧
  (val (F := .H) 0x0400 = pow2 (-14) ∧ val (F := .S) 0x00800000 = pow2 (-126) ∧
    val (F := .D) 0x0010000000000000 = pow2 (-1022)) ∧
  ∀ (F : Format) (x : Pattern F), isFinite x = true → x ≠ zero F (sign x) →
    pow2 (emin F - F.M) ≤ |val x| ∧ |val x| ≤ (2 - pow2 (-F.M)) * pow2 (emax F)

/-- R17, R61: a value of the format rounds to itself. -/
def Obligations.FormatValuesRoundToThemselves : Prop :=
  ∀ (F : Format) (x : Pattern F), isFinite x = true → isZero x = false → roundToFormat F (sign x) |val x| = x

/-! ### NaN results (00_scope.md R19, R20) -/

/-- R19: the unit's own policy returns NaNs wherever it is used, and no NaN is shut out of it. -/
def Obligations.UnitPolicyGivesNaNs : Prop :=
  unitPolicy.Lawful ∧ ∀ (F : Format) (x : Pattern F), isNaN x = true → asNaN F x = x

/-- R20: the reference policy is a NaNPolicy for both values of DEFAULT_NAN_SIGN. Its convNaN always gives a quiet NaN of
the operand's sign, with the top fraction bits of the operand or its fraction with zero bits appended, and the quiet
bit set; its propNaN gives the first NaN operand with the quiet bit set; its defaultNaN is as the rule writes it, and
with DEFAULT_NAN_SIGN = 0 the listed patterns. -/
def Obligations.ReferencePolicyIsLawful : Prop :=
  (∀ b, (referencePolicy b).Lawful) ∧
  (∀ b Fs Fd (x : Pattern Fs),
    let r := (referencePolicy b).convNaN Fs Fd x
    isQuiet r = true ∧ sign r = sign x ∧
    ∀ i, i < Fd.M →
      (frac r).getLsbD i =
        (decide (i = Fd.M - 1) ||
          if Fd.M ≤ Fs.M then (frac x).getLsbD (i + (Fs.M - Fd.M))
          else decide (Fd.M - Fs.M ≤ i) && (frac x).getLsbD (i - (Fd.M - Fs.M)))) ∧
  (∀ b F (x y : Pattern F),
    (isNaN x = true → (referencePolicy b).propNaN F x y = quiet x) ∧
    (isNaN x = false → (referencePolicy b).propNaN F x y = quiet y)) ∧
  (∀ F (x : Pattern F) i, (quiet x).getLsbD i = (x.getLsbD i || decide (i = F.M - 1))) ∧
  (∀ b F, sign ((referencePolicy b).defaultNaN F) = b ∧
    expf ((referencePolicy b).defaultNaN F) = BitVec.allOnes F.E ∧
    frac ((referencePolicy b).defaultNaN F) = BitVec.twoPow F.M (F.M - 1)) ∧
  (referencePolicy false).defaultNaN .H = 0x7e00 ∧ (referencePolicy false).defaultNaN .S = 0x7fc00000 ∧
  (referencePolicy false).defaultNaN .D = 0x7ff8000000000000

/-- R63 with R64, R66, R68, R70: when an operand is a NaN, the result of every operation is propNaN of the two widened
operands, the subtrahend of SUB as given and not negated, converted back: a NaN under every policy. -/
def Obligations.NaNOperandsGiveNaN : Prop :=
  ∀ (P : NaNPolicy), P.Lawful → ∀ (op : Op) (F : Prec) (a b : Pattern F.fmt), isNaN a = true ∨ isNaN b = true →
    arith P op F a b = P.convNaN .D F.fmt (P.propNaN .D (widen P F a) (widen P F b)) ∧
    isNaN (arith P op F a b) = true

/-- R64, R66, R68, R70: the invalid operations give the default NaN converted to F, a NaN under every policy. -/
def Obligations.InvalidOperationsGiveDefaultNaN : Prop :=
  ∀ (P : NaNPolicy), P.Lawful → ∀ (F : Prec) (s s' : Bool) (z : Pattern F.fmt), isZero z = true →
    let i := inf F.fmt
    let d := P.convNaN .D F.fmt (P.defaultNaN .D)
    isNaN d = true ∧
    arith P .add F (i s) (i (!s)) = d ∧ arith P .sub F (i s) (i s) = d ∧
    arith P .mul F (i s) z = d ∧ arith P .mul F z (i s) = d ∧
    arith P .div F (i s) (i s') = d ∧ arith P .div F z (zero F.fmt s) = d

/-! ### Conversion (40_convert.md) -/

/-- R21: Widen never rounds: it keeps the sign and the value of every finite pattern, takes zero to zero and infinity to
infinity, and gives a NaN to convNaN. -/
def Obligations.WidenIsExact : Prop :=
  ∀ (P : NaNPolicy) (F : Prec) (x : Pattern F.fmt),
    (isFinite x = true →
      isFinite (widen P F x) = true ∧ val (widen P F x) = val x ∧ sign (widen P F x) = sign x ∧
      isZero (widen P F x) = isZero x) ∧
    (isZero x = true → widen P F x = zero .D (sign x)) ∧
    (isInf x = true → widen P F x = inf .D (sign x)) ∧
    (isNaN x = true → widen P F x = P.convNaN F.fmt .D x)

/-- R59, R60: CVT rounds once, directly to F, and every row of its table: zeros, infinities, NaNs, overflow, underflow,
binary64 subnormals, and between the thresholds the nearest value of F, ties to even, which is a subnormal when it lies
below 2^emin. -/
def Obligations.ConversionCornerCases : Prop :=
  ∀ (P : NaNPolicy) (F : Prec) (x : Pattern .D),
    (isZero x = true → convertD P F x = zero F.fmt (sign x)) ∧
    (isInf x = true → convertD P F x = inf F.fmt (sign x)) ∧
    (isNaN x = true → convertD P F x = P.convNaN .D F.fmt x) ∧
    (isFinite x = true → (2 - pow2 (-precision F.fmt)) * pow2 (emax F.fmt) ≤ |val x| →
      convertD P F x = inf F.fmt (sign x)) ∧
    (isFinite x = true → |val x| ≤ pow2 (emin F.fmt - F.fmt.M) / 2 → convertD P F x = zero F.fmt (sign x)) ∧
    (isSub x = true → convertD P F x = zero F.fmt (sign x)) ∧
    (isFinite x = true → isZero x = false → convertD P F x = roundToFormat F.fmt (sign x) |val x|) ∧
    (isFinite x = true → pow2 (emin F.fmt - F.fmt.M) / 2 < |val x| →
      |val x| < (2 - pow2 (-precision F.fmt)) * pow2 (emax F.fmt) →
      let r := convertD P F x
      isFinite r = true ∧ isZero r = false ∧ sign r = sign x ∧ (isSub r = true ↔ |val r| < pow2 (emin F.fmt)) ∧
      ∀ y : Pattern F.fmt, isFinite y = true →
        |val r - val x| ≤ |val y - val x| ∧
        (val y ≠ val r → |val r - val x| = |val y - val x| → (frac r).getLsbD 0 = false))

/-- R61: CVT of a binary64 value that F represents is that value with its sign, and Widen followed by ConvertD is the
identity on every non-NaN pattern of F. -/
def Obligations.ConversionRoundTrips : Prop :=
  ∀ (P : NaNPolicy) (F : Prec),
    (∀ d : Pattern .D, isFinite d = true → (∃ y : Pattern F.fmt, isFinite y = true ∧ val y = val d) →
      isFinite (convertD P F d) = true ∧ val (convertD P F d) = val d ∧ sign (convertD P F d) = sign d) ∧
    ∀ x : Pattern F.fmt, isNaN x = false → convertD P F (widen P F x) = x

/-- R62: conversion is idempotent on non-NaN inputs; on a NaN the results are NaNs, the same pattern under the reference
policy but not under every policy. -/
def Obligations.ConversionIsIdempotent : Prop :=
  (∀ (P : NaNPolicy) (F : Prec) (d : Pattern .D), isNaN d = false →
    convertD P F (widen P F (convertD P F d)) = convertD P F d) ∧
  (∀ (P : NaNPolicy), P.Lawful → ∀ (F : Prec) (d : Pattern .D), isNaN d = true →
    isNaN (convertD P F d) = true ∧ isNaN (convertD P F (widen P F (convertD P F d))) = true) ∧
  (∀ (b : Bool) (F : Prec) (d : Pattern .D), isNaN d = true →
    let P := referencePolicy b
    convertD P F (widen P F (convertD P F d)) = convertD P F d) ∧
  ∀ F : Prec, ∃ P : NaNPolicy, P.Lawful ∧ ∃ d : Pattern .D, isNaN d = true ∧
    convertD P F (widen P F (convertD P F d)) ≠ convertD P F d

/-! ### Arithmetic (41_arith.md) -/

/-- R65: ADD's corner cases that name no NaN. A nonzero sum below 2^emin is a subnormal of exactly that value, in S as in
H. -/
def Obligations.AdditionCornerCases : Prop :=
  ∀ (P : NaNPolicy) (F : Prec) (a b : Pattern F.fmt) (s : Bool),
    (isFinite b = true → arith P .add F (inf F.fmt s) b = inf F.fmt s ∧ arith P .add F b (inf F.fmt s) = inf F.fmt s) ∧
    arith P .add F (inf F.fmt s) (inf F.fmt s) = inf F.fmt s ∧
    (∀ s', arith P .add F (zero F.fmt s) (zero F.fmt s') = zero F.fmt (s && s')) ∧
    (isFinite a = true → isZero a = false → arith P .add F a (neg a) = zero F.fmt false) ∧
    (isFinite a = true → isZero a = false → arith P .add F a (zero F.fmt s) = a ∧ arith P .add F (zero F.fmt s) a = a) ∧
    (isFinite a = true → isFinite b = true →
      (2 - pow2 (-precision F.fmt)) * pow2 (emax F.fmt) ≤ |val a + val b| →
      arith P .add F a b = inf F.fmt (decide (val a + val b < 0))) ∧
    (isFinite a = true → isFinite b = true → val a + val b ≠ 0 → |val a + val b| < pow2 (emin F.fmt) →
      isSub (arith P .add F a b) = true ∧ val (arith P .add F a b) = val a + val b)

/-- R67: SUB's corner cases that name no NaN. -/
def Obligations.SubtractionCornerCases : Prop :=
  ∀ (P : NaNPolicy) (F : Prec) (a b : Pattern F.fmt) (s : Bool),
    arith P .sub F (inf F.fmt s) (inf F.fmt (!s)) = inf F.fmt s ∧
    (isFinite b = true →
      arith P .sub F (inf F.fmt s) b = inf F.fmt s ∧ arith P .sub F b (inf F.fmt s) = inf F.fmt (!s)) ∧
    (∀ s', arith P .sub F (zero F.fmt s) (zero F.fmt s') = zero F.fmt (s && !s')) ∧
    (isFinite a = true → arith P .sub F a a = zero F.fmt false) ∧
    (isFinite a = true → isFinite b = true →
      (2 - pow2 (-precision F.fmt)) * pow2 (emax F.fmt) ≤ |val a - val b| →
      arith P .sub F a b = inf F.fmt (decide (val a - val b < 0)))

/-- R69: MUL's corner cases that name no NaN; s is the XOR of the operands' signs. -/
def Obligations.MultiplicationCornerCases : Prop :=
  ∀ (P : NaNPolicy) (F : Prec) (a b : Pattern F.fmt),
    let s := sign a ^^ sign b
    (isInf a = true → isNaN b = false → isZero b = false →
      arith P .mul F a b = inf F.fmt s ∧ arith P .mul F b a = inf F.fmt s) ∧
    (isZero a = true → isFinite b = true →
      arith P .mul F a b = zero F.fmt s ∧ arith P .mul F b a = zero F.fmt s) ∧
    (isFinite a = true → isFinite b = true →
      (2 - pow2 (-precision F.fmt)) * pow2 (emax F.fmt) ≤ |val a * val b| → arith P .mul F a b = inf F.fmt s) ∧
    (isFinite a = true → isFinite b = true →
      |val a * val b| ≤ pow2 (emin F.fmt - F.fmt.M) / 2 → arith P .mul F a b = zero F.fmt s) ∧
    (isNaN a = false → sign (arith P .mul F a a) = false)

/-- R71: DIV's corner cases that name no NaN; s is the XOR of the operands' signs. -/
def Obligations.DivisionCornerCases : Prop :=
  ∀ (P : NaNPolicy) (F : Prec) (a b : Pattern F.fmt),
    let s := sign a ^^ sign b
    (isFinite a = true → isZero a = false → isZero b = true → arith P .div F a b = inf F.fmt s) ∧
    (isInf a = true → isFinite b = true → arith P .div F a b = inf F.fmt s) ∧
    (isFinite a = true → isInf b = true → arith P .div F a b = zero F.fmt s) ∧
    (isZero a = true → isFinite b = true → isZero b = false → arith P .div F a b = zero F.fmt s) ∧
    (isFinite a = true → isFinite b = true → isZero b = false →
      (2 - pow2 (-precision F.fmt)) * pow2 (emax F.fmt) ≤ |val a / val b| → arith P .div F a b = inf F.fmt s) ∧
    (isFinite a = true → isFinite b = true → isZero b = false →
      |val a / val b| ≤ pow2 (emin F.fmt - F.fmt.M) / 2 → arith P .div F a b = zero F.fmt s) ∧
    (isFinite a = true → isZero a = false → arith P .div F a a = pack F.fmt false (BitVec.ofNat _ (bias F.fmt).toNat) 0)

/-- R72: the exact results of finite operations lie in the stated ranges, and the binary64 intermediate is a zero
exactly for an exact zero and otherwise a normal number. -/
def Obligations.IntermediateNeverOverflowsOrUnderflows : Prop :=
  ∀ (P : NaNPolicy) (F : Prec) (a b : Pattern F.fmt), isFinite a = true → isFinite b = true →
    let x := widen P F a
    let y := widen P F b
    let fits : Pattern .D → ℚ → ℚ → ℚ → Prop := fun t v lo hi =>
      (v = 0 ∧ isZero t = true) ∨ (lo ≤ |v| ∧ |v| ≤ hi ∧ isNormal t = true)
    (fits (add64 P x y) (val a + val b) (pow2 (-149)) (pow2 129) ∧ |val a + val b| < pow2 129) ∧
    (fits (sub64 P x y) (val a - val b) (pow2 (-149)) (pow2 129) ∧ |val a - val b| < pow2 129) ∧
    (fits (mul64 P x y) (val a * val b) (pow2 (-298)) (pow2 256) ∧ |val a * val b| < pow2 256) ∧
    (isZero b = false → fits (div64 P x y) (val a / val b) (pow2 (-277)) (pow2 277))

/-- R73: which binary64 intermediates are exact, and that the others can be inexact: the rule's two examples, the first
for SUB64 as well, the second in both formats. -/
def Obligations.IntermediateIsExactWhereStated : Prop :=
  (∀ (P : NaNPolicy) (a b : Pattern Prec.H.fmt), isFinite a = true → isFinite b = true →
    val (add64 P (widen P .H a) (widen P .H b)) = val a + val b ∧
    val (sub64 P (widen P .H a) (widen P .H b)) = val a - val b ∧
    val (mul64 P (widen P .H a) (widen P .H b)) = val a * val b) ∧
  (∀ (P : NaNPolicy) (a b : Pattern Prec.S.fmt), isFinite a = true → isFinite b = true →
    val (mul64 P (widen P .S a) (widen P .S b)) = val a * val b) ∧
  ∀ P : NaNPolicy,
    val (add64 P (widen P .S 0x7f000000) (widen P .S 0x00000001)) ≠ pow2 127 + pow2 (-149) ∧
    val (sub64 P (widen P .S 0x7f000000) (widen P .S 0x80000001)) ≠ pow2 127 + pow2 (-149) ∧
    val (div64 P (widen P .S 0x3f800000) (widen P .S 0x40400000)) ≠ 1 / 3 ∧
    val (div64 P (widen P .H 0x3c00) (widen P .H 0x4200)) ≠ 1 / 3

/-- R74: for finite operands with a nonzero exact result, the two-step rounding of Arith equals the single rounding of
the exact result to F. -/
def Obligations.DoubleRoundingIsInnocuous : Prop :=
  ∀ (P : NaNPolicy) (F : Prec) (a b : Pattern F.fmt), isFinite a = true → isFinite b = true →
    (val a + val b ≠ 0 →
      arith P .add F a b = roundToFormat F.fmt (decide (val a + val b < 0)) |val a + val b|) ∧
    (val a - val b ≠ 0 →
      arith P .sub F a b = roundToFormat F.fmt (decide (val a - val b < 0)) |val a - val b|) ∧
    (val a * val b ≠ 0 → arith P .mul F a b = roundToFormat F.fmt (sign a ^^ sign b) |val a * val b|) ∧
    (val a / val b ≠ 0 → arith P .div F a b = roundToFormat F.fmt (sign a ^^ sign b) |val a / val b|)

/-- R75: ADD and MUL are commutative on non-NaN operands; under the reference policy they are not on NaNs, and SUB and
DIV are not commutative. -/
def Obligations.AdditionAndMultiplicationCommute : Prop :=
  (∀ (P : NaNPolicy) (F : Prec) (a b : Pattern F.fmt), isNaN a = false → isNaN b = false →
    arith P .add F a b = arith P .add F b a ∧ arith P .mul F a b = arith P .mul F b a) ∧
  ∀ F : Prec,
    (∃ a b : Pattern F.fmt,
      arith (referencePolicy false) .add F a b ≠ arith (referencePolicy false) .add F b a ∧
      arith (referencePolicy false) .mul F a b ≠ arith (referencePolicy false) .mul F b a) ∧
    ∀ P : NaNPolicy, ∃ a b : Pattern F.fmt, isNaN a = false ∧ isNaN b = false ∧
      arith P .sub F a b ≠ arith P .sub F b a ∧ arith P .div F a b ≠ arith P .div F b a

/-- C1, R65: the overflow boundary of H, where the document's scenario is wrong. -/
def Obligations.HalfOverflowBoundary : Prop :=
  ∀ P : NaNPolicy,
    arith P .add .H 0x7bff 0x3c00 = 0x7bff ∧ arith P .add .H 0x7bff 0x4b80 = 0x7bff ∧
    arith P .add .H 0x7bff 0x4c00 = 0x7c00 ∧ convertD P .H 0x40effde000000000 = 0x7bff ∧
    convertD P .H 0x40effe0000000000 = 0x7c00

/-! ### Strings (42_extract.md, 43_group.md, 44_pipeline.md) -/

/-- R77: the widths of XTR's strings for every pattern. -/
def Obligations.ExtractedStringWidths : Prop :=
  (∀ (F : Format) (x : Pattern F), (hexString F x).length = 2 + F.w / 4 ∧ (binString F x).length = F.w) ∧
  (∀ x : Pattern .H, (hexString .H x).length = 6 ∧ (binString .H x).length = 16) ∧
  ∀ x : Pattern .S, (hexString .S x).length = 10 ∧ (binString .S x).length = 32

/-- R42, R79: the hexadecimal string begins with the characters 0 and x; both strings are numerals of uint(x), the
sign bit is the leading binary digit, and each hexadecimal digit stands for the four binary digits at its place. -/
def Obligations.ExtractedStringsAreNumerals : Prop :=
  ∀ (F : Format) (x : Pattern F),
    (hexString F x)[0]? = some 0x30 ∧ (hexString F x)[1]? = some 0x78 ∧
    ((hexString F x).drop 2).foldl (fun n c => 16 * n + (hexValue c).toNat) 0 = x.toNat ∧
    (binString F x).foldl (fun n c => 2 * n + if c = 0x31 then 1 else 0) 0 = x.toNat ∧
    (binString F x)[0]? = some (bitChar (sign x)) ∧
    ∀ k, k < F.w / 4 →
      let v := x.extractLsb' (F.w - 4 - 4 * k) 4
      (hexString F x)[2 + k]? = some (hexDigit v) ∧
      ∀ j, j < 4 → (binString F x)[4 * k + j]? = some (bitChar (v.getLsbD (3 - j)))

/-- R83: the length of GRP's output and of each of its groups. -/
def Obligations.GroupedOutputLength : Prop :=
  (∀ limit s out, groupString limit s = some out → ∃ b, groupSource s = some b ∧ out = groupRuns b) ∧
  (runsOf4 [] = [] ∧ groupRuns [] = []) ∧
  (∀ b : Text, b ≠ [] →
    let groups := (b.length + 3) / 4
    (runsOf4 b).length = groups ∧ (groupRuns b).length = b.length + groups - 1 ∧
    (∀ j g, (runsOf4 b)[j]? = some g →
      (j + 1 < groups → g.length = 4) ∧
      (j + 1 = groups → g.length = b.length - 4 * (groups - 1) ∧ 1 ≤ g.length ∧ g.length ≤ 4))) ∧
  (∀ limit h out, groupString limit (0x30 :: 0x78 :: h) = some out → out.length = 5 * h.length - 1) ∧
  groupString Config.grpMaxChars (ascii "0x00") = some (ascii "0000 0000") ∧
  groupString Config.grpMaxChars (ascii "101") = some (ascii "101")

/-- R80: grouping keeps every character in order and only inserts spaces, one after each fourth character that another
follows. -/
def Obligations.GroupingOnlyInsertsSpaces : Prop :=
  ∀ limit s out, groupString limit s = some out →
    ∃ b, groupSource s = some b ∧ out.filter (fun c => c != spaceChar) = b ∧
      (∀ j c, out[j]? = some c → (c = spaceChar ↔ j % 5 = 4)) ∧ out.getLast? ≠ some spaceChar

/-- R81: a hexadecimal input of k digits expands to the 4k-digit binary numeral of the number it denotes, so it gives k
full groups. -/
def Obligations.HexExpansionIsItsNumeral : Prop :=
  ∀ h : Text, h ≠ [] → (∀ c ∈ h, isHexChar c = true) →
    ∃ b, groupSource (0x30 :: 0x78 :: h) = some b ∧ b.length = 4 * h.length ∧ (∀ c ∈ b, c = 0x30 ∨ c = 0x31) ∧
      b.foldl (fun n c => 2 * n + if c = 0x31 then 1 else 0) 0 =
        h.foldl (fun n c => 16 * n + (hexValue c).toNat) 0 ∧
      (runsOf4 b).length = h.length ∧ ∀ g ∈ runsOf4 b, g.length = 4

/-- R86: every binString is a plain binary string of w characters, so GRP accepts it and gives w/4 full groups; after RUN,
TXT[1], TXT[3] and TXT[5] have w + w/4 - 1 characters, 19 for H and 39 for S. -/
def Obligations.RunGroupedStrings : Prop :=
  (∀ (F : Prec) (x : Pattern F.fmt),
    (binString F.fmt x).length = F.fmt.w ∧ (∀ c ∈ binString F.fmt x, c = 0x30 ∨ c = 0x31)) ∧
  (∀ (F : Prec) (x : Pattern F.fmt), ∃ g, groupString Config.grpMaxChars (binString F.fmt x) = some g ∧
    (runsOf4 (binString F.fmt x)).length = F.fmt.w / 4 ∧ ∀ r ∈ runsOf4 (binString F.fmt x), r.length = 4) ∧
  ∀ op F s t, exec (Instr.run op F) s = .next t →
    ∀ g, (t.resp.txt1 = some g ∨ t.resp.txt3 = some g ∨ t.resp.txt5 = some g) →
      g.length = F.fmt.w + F.fmt.w / 4 - 1 ∧
      g.length = if F = .H then 19 else 39

/-- R88: RUN writes the values of the single commands CVT, CVT, op, then XTR and GRP on each of A, B and R, when the host
copies each result into the next operand, from whatever states those commands are issued. -/
def Obligations.RunMatchesSingleCommands : Prop :=
  ∀ op F s t, exec (Instr.run op F) s = .next t →
    ∃ A B R,
      t.resp.resA = some A ∧ t.resp.resB = some B ∧ t.resp.resR = some R ∧
      (∀ u : State, u.ports.a64 = s.ports.a64 → ∃ v, exec (.cvt F) u = .next v ∧ v.resp.resR = some A) ∧
      (∀ u : State, u.ports.a64 = s.ports.b64 → ∃ v, exec (.cvt F) u = .next v ∧ v.resp.resR = some B) ∧
      (∀ u : State, u.ports.xa = A → u.ports.xb = B →
        ∃ v, exec (Instr.single op F) u = .next v ∧ v.resp.resR = some R) ∧
      ∀ e ∈ [(A, t.resp.txt0, t.resp.txt1), (B, t.resp.txt2, t.resp.txt3), (R, t.resp.txt4, t.resp.txt5)],
        ∀ u : State, u.ports.xa = e.1 →
          ∃ v bin, exec (.xtr F) u = .next v ∧ v.resp.txt0 = e.2.1 ∧ v.resp.txt1 = some bin ∧
            ∀ w : State, w.ports.sin = bin →
              ∃ z, exec .grp w = .next z ∧ z.status = 0x19 ∧ z.resp.txt0 = e.2.2 ∧ z.resp.txt0.isSome = true

/-! ### Codes (00_scope.md R23, R24; 10_state.md R30, R31) -/

/-- R23 with the codes of R24 (D14: the spec's own choice): HexDigit of each value, BitChar of each bit, HexValue the
inverse of HexDigit on the sixteen digits, the three other characters, and the alphabet. -/
def Obligations.CharactersHaveTheirCodes : Prop :=
  let digits : Text :=
    [0x30, 0x31, 0x32, 0x33, 0x34, 0x35, 0x36, 0x37, 0x38, 0x39, 0x61, 0x62, 0x63, 0x64, 0x65, 0x66]
  (∀ v : BitVec 4, digits[v.toNat]? = some (hexDigit v)) ∧ bitChar false = 0x30 ∧ bitChar true = 0x31 ∧
  (∀ v, hexValue (hexDigit v) = v) ∧
  (∀ c, isHexChar c = true ↔ c ∈ digits) ∧ (∀ c, isHexChar c = true → hexDigit (hexValue c) = c) ∧
  zeroChar = 0x30 ∧ xChar = 0x78 ∧ spaceChar = 0x20 ∧
  ∀ c, inAlphabet c = true ↔ c ∈ digits ∨ c = 0x78 ∨ c = 0x20

/-- R30, R31: where the fields of STATUS lie, the codes of ERR and KIND, which commands have which kind, and which
registers each kind names as written. -/
def Obligations.StatusFieldsAndCodes : Prop :=
  (∀ s : State,
    s.status.toNat = s.valid.toNat + 2 * s.err.toNat + 8 * s.kindField.toNat + 64 * (s.status.extractLsb' 6 2).toNat) ∧
  CmdError.unsup.code = 1 ∧ CmdError.malformed.code = 2 ∧
  [Kind.none, .num, .xtr, .grp, .run].map Kind.code = [0, 1, 2, 3, 4] ∧
  (∀ i, kindOf i =
    match i with
    | .cvt _ | .add _ | .sub _ | .mul _ | .div _ => .num
    | .xtr _ => .xtr
    | .grp => .grp
    | .runAdd _ | .runSub _ | .runMul _ | .runDiv _ => .run) ∧
  ∀ (k : Kind) (r : RegName), r ≠ .status →
    let written : List RegName :=
      match k with
      | .none => []
      | .num => [.resR]
      | .xtr => [.txt 0, .txt 1]
      | .grp => [.txt 0]
      | .run => [.resA, .resB, .resR, .txt 0, .txt 1, .txt 2, .txt 3, .txt 4, .txt 5]
    k.writes r = true ↔ r ∈ written
end

