-- ==== Sys2Proof/Laws/Format.lean ====
section
/-! SUPPORT. Patterns and their fields: reading a packed pattern back, the classes of the constructors, and the field
bounds (00_scope.md R11 to R15). -/

namespace Sys2Proof.Machine

theorem width_eq (F : Format) : F.w = F.M + (F.E + 1) := by cases F <;> rfl

theorem exponent_width_pos (F : Format) : 0 < F.E := by cases F <;> decide

theorem fraction_width_pos (F : Format) : 0 < F.M := by cases F <;> decide

theorem getLsbD_pack (F : Format) (s : Bool) (e : BitVec F.E) (f : BitVec F.M) (i : Nat) :
    (pack F s e f).getLsbD i =
      if i < F.M then f.getLsbD i else if i < F.M + F.E then e.getLsbD (i - F.M)
      else decide (i = F.M + F.E) && s := by
  have hw := width_eq F
  unfold pack
  rw [BitVec.getLsbD_setWidth, BitVec.getLsbD_append]
  split
  · simp; omega
  · rw [BitVec.getLsbD_append]
    split
    · rw [if_pos (by omega)]; simp; omega
    · rw [if_neg (by omega)]
      by_cases h : i = F.M + F.E
      · subst h; simp; omega
      · simp [h]; omega

@[simp] theorem expf_pack (F : Format) (s : Bool) (e : BitVec F.E) (f : BitVec F.M) :
    expf (pack F s e f) = e := by
  apply BitVec.eq_of_getLsbD_eq
  intro i hi
  rw [expf, BitVec.getLsbD_extractLsb', getLsbD_pack, if_neg (by omega), if_pos (by omega)]
  simp [hi]

@[simp] theorem frac_pack (F : Format) (s : Bool) (e : BitVec F.E) (f : BitVec F.M) :
    frac (pack F s e f) = f := by
  apply BitVec.eq_of_getLsbD_eq
  intro i hi
  rw [frac, BitVec.getLsbD_extractLsb', getLsbD_pack, if_pos (by omega)]
  simp [hi]

@[simp] theorem sign_pack (F : Format) (s : Bool) (e : BitVec F.E) (f : BitVec F.M) :
    sign (pack F s e f) = s := by
  have hw := width_eq F
  rw [sign, getLsbD_pack, if_neg (by omega), if_neg (by omega)]
  simp; omega

theorem pack_fields {F : Format} (x : Pattern F) : pack F (sign x) (expf x) (frac x) = x := by
  have hw := width_eq F
  apply BitVec.eq_of_getLsbD_eq
  intro i hi
  rw [getLsbD_pack]
  split
  · rename_i h; simp [frac, h]
  · split
    · rename_i h h'
      have h1 : i - F.M < F.E := by omega
      have h2 : F.M + (i - F.M) = i := by omega
      simp [expf, h1, h2]
    · have h3 : i = F.M + F.E := by omega
      have h4 : F.w - 1 = i := by omega
      simp only [sign, h4, ← h3, decide_true, Bool.true_and]

/-- Two patterns with the same fields are the same pattern. -/
theorem pattern_ext {F : Format} {x y : Pattern F} (hs : sign x = sign y) (he : expf x = expf y)
    (hf : frac x = frac y) : x = y := by
  rw [← pack_fields x, ← pack_fields y, hs, he, hf]

theorem expf_lt {F : Format} (x : Pattern F) : (expf x).toNat < 2 ^ F.E := (expf x).isLt

theorem frac_lt {F : Format} (x : Pattern F) : (frac x).toNat < 2 ^ F.M := (frac x).isLt

@[simp] theorem sign_zero (F : Format) (s : Bool) : sign (zero F s) = s := sign_pack ..
@[simp] theorem expf_zero (F : Format) (s : Bool) : expf (zero F s) = 0 := expf_pack ..
@[simp] theorem frac_zero (F : Format) (s : Bool) : frac (zero F s) = 0 := frac_pack ..
@[simp] theorem sign_inf (F : Format) (s : Bool) : sign (inf F s) = s := sign_pack ..
@[simp] theorem expf_inf (F : Format) (s : Bool) : expf (inf F s) = BitVec.allOnes F.E := expf_pack ..
@[simp] theorem frac_inf (F : Format) (s : Bool) : frac (inf F s) = 0 := frac_pack ..
@[simp] theorem sign_neg {F : Format} (x : Pattern F) : sign (neg x) = !sign x := sign_pack ..
@[simp] theorem expf_neg {F : Format} (x : Pattern F) : expf (neg x) = expf x := expf_pack ..
@[simp] theorem frac_neg {F : Format} (x : Pattern F) : frac (neg x) = frac x := frac_pack ..

theorem two_le_pow_exponent (F : Format) : 4 ≤ 2 ^ F.E := by cases F <;> decide

@[simp] theorem isZero_zero (F : Format) (s : Bool) : isZero (zero F s) = true := by simp [isZero]
@[simp] theorem isInf_inf (F : Format) (s : Bool) : isInf (inf F s) = true := by simp [isInf]

@[simp] theorem isZero_neg {F : Format} (x : Pattern F) : isZero (neg x) = isZero x := by simp [isZero]
@[simp] theorem isSub_neg {F : Format} (x : Pattern F) : isSub (neg x) = isSub x := by simp [isSub]
@[simp] theorem isNormal_neg {F : Format} (x : Pattern F) : isNormal (neg x) = isNormal x := by simp [isNormal]
@[simp] theorem isInf_neg {F : Format} (x : Pattern F) : isInf (neg x) = isInf x := by simp [isInf]
@[simp] theorem isNaN_neg {F : Format} (x : Pattern F) : isNaN (neg x) = isNaN x := by simp [isNaN]

/-- A pattern is the zero of its sign exactly when its class is zero. -/
theorem eq_zero_of_isZero {F : Format} {x : Pattern F} (h : isZero x = true) : x = zero F (sign x) := by
  simp only [isZero, Bool.and_eq_true, beq_iff_eq] at h
  apply pattern_ext
  · simp
  · rw [expf_zero]; exact BitVec.eq_of_toNat_eq (by simpa using h.1)
  · rw [frac_zero]; exact BitVec.eq_of_toNat_eq (by simpa using h.2)

/-- A pattern is the infinity of its sign exactly when its class is infinity. -/
theorem eq_inf_of_isInf {F : Format} {x : Pattern F} (h : isInf x = true) : x = inf F (sign x) := by
  simp only [isInf, Bool.and_eq_true, beq_iff_eq] at h
  apply pattern_ext
  · simp
  · rw [expf_inf]; exact BitVec.eq_of_toNat_eq (by simpa using h.1)
  · rw [frac_inf]; exact BitVec.eq_of_toNat_eq (by simpa using h.2)

/-- A NaN made from free bits is a NaN. -/
theorem isNaN_asNaN (F : Format) (bits : Pattern F) : isNaN (asNaN F bits) = true := by
  simp only [isNaN, asNaN, expf_pack, frac_pack, Bool.and_eq_true, beq_iff_eq, bne_iff_ne]
  refine ⟨by simp, ?_⟩
  split
  · cases F <;> decide
  · rename_i h
    intro h0
    exact h (BitVec.eq_of_toNat_eq (by simpa using h0))

end Sys2Proof.Machine
end

