-- ==== Sys2Proof/Laws/Round.lean ====
section
/-! SUPPORT. The numeric primitives said once: powers of two, floor_log2, the integer rounding and the grid a value is
rounded on (00_scope.md R8, R16, R17). -/

namespace Sys2Proof.Machine

/-- `pow2` is the integer power of two. -/
theorem pow2_eq_zpow (k : ℤ) : pow2 k = (2 : ℚ) ^ k := by
  cases k with
  | ofNat n => simp [pow2]
  | negSucc n =>
    rw [pow2, Rat.mkRat_eq_div, zpow_negSucc]
    simp

theorem pow2_pos (k : ℤ) : 0 < pow2 k := by rw [pow2_eq_zpow]; positivity

theorem pow2_ne_zero (k : ℤ) : pow2 k ≠ 0 := (pow2_pos k).ne'

theorem pow2_add (a b : ℤ) : pow2 (a + b) = pow2 a * pow2 b := by
  simp only [pow2_eq_zpow]; exact zpow_add₀ two_ne_zero a b

theorem pow2_le_iff {a b : ℤ} : pow2 a ≤ pow2 b ↔ a ≤ b := by
  simp only [pow2_eq_zpow]; exact zpow_le_zpow_iff_right₀ one_lt_two

theorem pow2_lt_iff {a b : ℤ} : pow2 a < pow2 b ↔ a < b := by
  simp only [pow2_eq_zpow]; exact zpow_lt_zpow_iff_right₀ one_lt_two

theorem pow2_natCast (n : ℕ) : pow2 (n : ℤ) = ((2 ^ n : ℕ) : ℚ) := rfl

/-- floor_log2 is the exponent of R8: 2^e ≤ m < 2^(e+1). -/
theorem floorLog2_spec {m : ℚ} (hm : 0 < m) : pow2 (floorLog2 m) ≤ m ∧ m < pow2 (floorLog2 m + 1) := by
  have hnum : 0 < m.num := Rat.num_pos.2 hm
  set a : ℕ := m.num.natAbs with ha
  set b : ℕ := m.den with hb
  have ha0 : a ≠ 0 := by omega
  have hb0 : b ≠ 0 := m.den_nz
  have hm' : m = (a : ℚ) / (b : ℚ) := by
    rw [hb, ha, Nat.cast_natAbs, abs_of_pos hnum]
    exact (Rat.num_div_den m).symm
  have hbq : (0 : ℚ) < b := by exact_mod_cast Nat.pos_of_ne_zero hb0
  have a1 : ((2 ^ a.log2 : ℕ) : ℚ) ≤ a := by exact_mod_cast Nat.log2_self_le ha0
  have a2 : (a : ℚ) < ((2 ^ (a.log2 + 1) : ℕ) : ℚ) := by exact_mod_cast Nat.lt_log2_self
  have b1 : ((2 ^ b.log2 : ℕ) : ℚ) ≤ b := by exact_mod_cast Nat.log2_self_le hb0
  have b2 : (b : ℚ) < ((2 ^ (b.log2 + 1) : ℕ) : ℚ) := by exact_mod_cast Nat.lt_log2_self
  rw [← pow2_natCast] at a1 a2 b1 b2
  have hlow : pow2 ((a.log2 : ℤ) - b.log2 - 1) < m := by
    rw [hm', lt_div_iff₀ hbq]
    calc pow2 ((a.log2 : ℤ) - b.log2 - 1) * b
        < pow2 ((a.log2 : ℤ) - b.log2 - 1) * pow2 ((b.log2 + 1 : ℕ) : ℤ) :=
          mul_lt_mul_of_pos_left b2 (pow2_pos _)
      _ = pow2 (a.log2 : ℤ) := by rw [← pow2_add]; congr 1; push_cast; ring
      _ ≤ a := a1
  have hhigh : m < pow2 ((a.log2 : ℤ) - b.log2 + 1) := by
    rw [hm', div_lt_iff₀ hbq]
    calc (a : ℚ) < pow2 ((a.log2 + 1 : ℕ) : ℤ) := a2
      _ = pow2 ((a.log2 : ℤ) - b.log2 + 1) * pow2 (b.log2 : ℤ) := by
          rw [← pow2_add]; congr 1; push_cast; ring
      _ ≤ pow2 ((a.log2 : ℤ) - b.log2 + 1) * b := mul_le_mul_of_nonneg_left b1 (pow2_pos _).le
  unfold floorLog2
  simp only [← ha, ← hb]
  split
  · rename_i h; exact ⟨h, hhigh⟩
  · rename_i h
    exact ⟨hlow.le, by simpa using lt_of_not_ge h⟩

/-- The exponent of R8 is unique. -/
theorem floorLog2_unique {m : ℚ} {e : ℤ} (h1 : pow2 e ≤ m) (h2 : m < pow2 (e + 1)) : floorLog2 m = e := by
  have hm : 0 < m := lt_of_lt_of_le (pow2_pos e) h1
  obtain ⟨g1, g2⟩ := floorLog2_spec hm
  have := pow2_lt_iff.1 (lt_of_le_of_lt h1 g2)
  have := pow2_lt_iff.1 (lt_of_le_of_lt g1 h2)
  omega

theorem le_floorLog2_iff {m : ℚ} (hm : 0 < m) {e : ℤ} : e ≤ floorLog2 m ↔ pow2 e ≤ m := by
  obtain ⟨g1, g2⟩ := floorLog2_spec hm
  constructor
  · intro h; exact (pow2_le_iff.2 h).trans g1
  · intro h; have := pow2_lt_iff.1 (lt_of_le_of_lt h g2); omega

/-- The parts of a nonnegative rational that RNEInt compares. -/
theorem floor_parts {q : ℚ} (hq : 0 ≤ q) : ((q.floor.toNat : ℕ) : ℚ) ≤ q ∧ q < (q.floor.toNat : ℕ) + 1 := by
  have h0 : (0 : ℤ) ≤ q.floor := Rat.le_floor_iff.2 (by simpa using hq)
  have hc : ((q.floor.toNat : ℕ) : ℚ) = ((q.floor : ℤ) : ℚ) := by
    exact_mod_cast congrArg (Int.cast : ℤ → ℚ) (Int.toNat_of_nonneg h0)
  rw [hc]
  exact ⟨Rat.floor_le q, by exact_mod_cast Rat.lt_floor_add_one q⟩

/-- RNEInt on an integer is that integer. -/
theorem rneInt_natCast (n : ℕ) : rneInt (n : ℚ) = n := by
  have : (n : ℚ).floor.toNat = n := by
    rw [show (n : ℚ) = ((n : ℤ) : ℚ) by norm_cast, Rat.floor_intCast, Int.toNat_natCast]
  simp only [rneInt, this]
  norm_num

theorem gridExp_eq_max (F : Format) (m : ℚ) : gridExp F m = max (floorLog2 m) (emin F) := by
  unfold gridExp; split <;> omega

end Sys2Proof.Machine
end

