-- ==== Sys2Proof/Laws/Grid.lean ====
section
/-! SUPPORT. RoundToFormat said once: the grid a magnitude is rounded on, the magnitudes a format represents, and the
finite patterns as grid points (00_scope.md R13, R14, R16, R17). -/

namespace Sys2Proof.Machine

/-- RNEInt said once (R16): the floor and what the remainder decides. -/
theorem rneInt_cases {q : ℚ} (hq : 0 ≤ q) :
    ∃ f : ℕ, (f : ℚ) ≤ q ∧ q < f + 1 ∧ ((q - f < 1/2 ∧ rneInt q = f) ∨ (q - f > 1/2 ∧ rneInt q = f + 1) ∨
      (q - f = 1/2 ∧ f % 2 = 0 ∧ rneInt q = f) ∨ (q - f = 1/2 ∧ f % 2 = 1 ∧ rneInt q = f + 1)) := by
  obtain ⟨h1, h2⟩ := floor_parts hq
  refine ⟨_, h1, h2, ?_⟩
  unfold rneInt
  simp only
  split
  · right; left; exact ⟨‹_›, rfl⟩
  · split
    · left; exact ⟨‹_›, rfl⟩
    · have : q - (q.floor.toNat : ℕ) = 1/2 := le_antisymm (not_lt.1 ‹_›) (not_lt.1 ‹_›)
      split
      · right; right; left; exact ⟨this, ‹_›, rfl⟩
      · right; right; right; exact ⟨this, by omega, rfl⟩

/-- RNEInt is monotone against integers above. -/
theorem rneInt_le_of_le {q : ℚ} (hq : 0 ≤ q) {k : ℕ} (h : q ≤ k) : rneInt q ≤ k := by
  obtain ⟨f, h1, h2, c⟩ := rneInt_cases hq
  have hf : f ≤ k := by exact_mod_cast h1.trans h
  by_contra hc
  have : f = k := by rcases c with ⟨_, e⟩ | ⟨_, e⟩ | ⟨_, _, e⟩ | ⟨_, _, e⟩ <;> omega
  subst this
  have : q = f := le_antisymm h h1
  subst this
  rcases c with ⟨_, e⟩ | ⟨h, e⟩ | ⟨_, _, e⟩ | ⟨h, _, e⟩
  · omega
  · simp at h; linarith
  · omega
  · norm_num at h

/-- RNEInt is monotone against integers below. -/
theorem le_rneInt_of_le {q : ℚ} {k : ℕ} (h : (k:ℚ) ≤ q) : k ≤ rneInt q := by
  have hq : 0 ≤ q := le_trans (by positivity) h
  obtain ⟨f, h1, h2, c⟩ := rneInt_cases hq
  have : k < f + 1 := by exact_mod_cast lt_of_le_of_lt h h2
  rcases c with ⟨_, e⟩ | ⟨_, e⟩ | ⟨_, _, e⟩ | ⟨_, _, e⟩ <;> omega

theorem bias_pos (F : Format) : 0 < bias F := by cases F <;> decide

theorem two_bias (F : Format) : 2 * bias F = 2 ^ F.E - 2 := by cases F <;> decide

theorem emin_le_emax (F : Format) : emin F ≤ emax F := by cases F <;> decide

/-- The fields, class and value of a packed normal pattern. -/
theorem pack_normal (F : Format) (s : Bool) (e : ℤ) (n : ℕ) (h1 : emin F ≤ e) (h2 : e ≤ emax F) (h3 : 2 ^ F.M ≤ n)
  (h4 : n < 2 ^ (F.M + 1)) :
    let x := pack F s (BitVec.ofNat F.E (e + bias F).toNat) (BitVec.ofNat F.M (n - 2 ^ F.M))
    (expf x).toNat = (e + bias F).toNat ∧ (frac x).toNat = n - 2 ^ F.M ∧ isNormal x = true ∧
      val x = signValue s * (n * pow2 (e - F.M)) := by
  have hb := two_bias F
  have hbp := bias_pos F
  unfold emin at h1; unfold emax at h2
  have hE : ((2 ^ F.E : ℕ) : ℤ) = 2 ^ F.E := by push_cast; rfl
  have h5 : (e + bias F).toNat < 2 ^ F.E := by
    zify; rw [Int.toNat_of_nonneg (by omega)]; omega
  have h6 : n - 2 ^ F.M < 2 ^ F.M := by rw [pow_succ] at h4; omega
  intro x
  have e1 : (expf x).toNat = (e + bias F).toNat := by
    simp only [x, expf_pack, BitVec.toNat_ofNat]
    exact Nat.mod_eq_of_lt h5
  have e2 : (frac x).toNat = n - 2 ^ F.M := by simp only [x, frac_pack, BitVec.toNat_ofNat]; exact Nat.mod_eq_of_lt h6
  have hn : isNormal x = true := by
    simp only [isNormal, e1, Bool.and_eq_true, decide_eq_true_eq]
    have : (2 ^ F.E : ℕ) - 1 = ((2:ℤ) ^ F.E - 1).toNat := by rw [← hE]; omega
    constructor <;> omega
  refine ⟨e1, e2, hn, ?_⟩
  rw [val, if_pos hn, e1, e2]
  have : sign x = s := sign_pack ..
  rw [this, Int.toNat_of_nonneg (by omega), Nat.cast_sub h3]
  have hM : ((2 ^ F.M : ℕ) : ℚ) = pow2 F.M := rfl
  rw [show e + bias F - bias F = e by ring, show e - (F.M:ℤ) = e + -(F.M:ℤ) by ring, pow2_add, hM]
  have hp := pow2_ne_zero F.M
  have hi : pow2 (-(F.M:ℤ)) = (pow2 F.M)⁻¹ := by rw [pow2_eq_zpow, pow2_eq_zpow, zpow_neg]
  rw [hi]; field_simp; ring

/-- The fields and value of a packed pattern of exponent field 0. -/
theorem pack_subnormal (F : Format) (s : Bool) (n : ℕ) (h4 : n < 2 ^ F.M) :
    let x := pack F s 0 (BitVec.ofNat F.M n)
    (expf x).toNat = 0 ∧ (frac x).toNat = n ∧ isFinite x = true ∧
      val x = signValue s * (n * pow2 (emin F - F.M)) := by
  intro x
  have e1 : (expf x).toNat = 0 := by simp [x]
  have e2 : (frac x).toNat = n := by simp only [x, frac_pack, BitVec.toNat_ofNat]; exact Nat.mod_eq_of_lt h4
  have hs : sign x = s := sign_pack ..
  have hnn : isNormal x = false := by simp [isNormal, e1]
  have hM : ((2 ^ F.M : ℕ) : ℚ) = pow2 F.M := rfl
  have hi : pow2 (-(F.M:ℤ)) = (pow2 F.M)⁻¹ := by rw [pow2_eq_zpow, pow2_eq_zpow, zpow_neg]
  refine ⟨e1, e2, ?_, ?_⟩
  · by_cases h0 : n = 0
    · simp [isFinite, isZero, e1, e2, h0]
    · simp [isFinite, isSub, e1, e2, h0]
  · by_cases h0 : n = 0
    · simp [val, hnn, isSub, e1, e2, h0]
    · rw [val, hnn]
      simp only [Bool.false_eq_true, if_false]
      rw [if_pos (by simp [isSub, e1, e2, h0]), e2, hs, hM, sub_eq_add_neg, pow2_add, hi]
      field_simp

theorem packGrid_spec (F : Format) (s : Bool) (e : ℤ) (n : ℕ) (h1 : emin F ≤ e) (h2 : e ≤ emax F)
    (h3 : 2 ^ F.M ≤ n ∨ e = emin F) (h4 : n < 2 ^ (F.M + 1)) :
    isFinite (packGrid F s e n) = true ∧ sign (packGrid F s e n) = s ∧
    val (packGrid F s e n) = signValue s * (n * pow2 (e - F.M)) ∧
    (isZero (packGrid F s e n) = true ↔ n = 0) ∧ ((frac (packGrid F s e n)).toNat % 2 = n % 2) ∧
    (2 ^ F.M ≤ n → isNormal (packGrid F s e n) = true) := by
  have h2M : 2 ^ F.M % 2 = 0 := by cases F <;> decide
  have h2p : 0 < 2 ^ F.M := by positivity
  unfold packGrid
  rw [if_neg (by omega)]
  split
  · rename_i hn
    obtain ⟨a, b, c, d⟩ := pack_normal F s e n h1 h2 hn h4
    refine ⟨by simp [isFinite, c], sign_pack .., d, ?_, by rw [b]; omega, fun _ => c⟩
    have : isZero (pack F s (BitVec.ofNat F.E (e + bias F).toNat) (BitVec.ofNat F.M (n - 2 ^ F.M))) = false := by
      simp only [isNormal, Bool.and_eq_true, decide_eq_true_eq] at c
      simp only [isZero]; rw [Bool.and_eq_false_iff]; left; simp; simp at c; omega
    rw [this]; constructor
    · intro h; cases h
    · intro h; subst h; omega
  · rename_i hn
    obtain rfl : e = emin F := by rcases h3 with h | h; exact absurd h hn; exact h
    obtain ⟨a, b, c, d⟩ := pack_subnormal F s n (by omega)
    refine ⟨c, sign_pack .., d, ?_, by rw [b], fun h => absurd h hn⟩
    rw [isZero, a, b]
    simp

/-- y is n * 2^(e - M) with n ≤ 2^(M+1) and e ≥ emin: a magnitude of F, were its exponent unbounded above. -/
def Representable (F : Format) (y : ℚ) :
    Prop := ∃ (e : ℤ) (n : ℕ), emin F ≤ e ∧ n ≤ 2 ^ (F.M + 1) ∧ y = n * pow2 (e - F.M)

/-- The spacing of the grid m is rounded on (R17). -/
def ulp (F : Format) (m : ℚ) : ℚ := pow2 (gridExp F m - F.M)

/-- The integer n of R17. -/
def significand (F : Format) (m : ℚ) : ℕ := rneInt (m * pow2 (F.M - gridExp F m))

/-- The magnitude R17 rounds m to, before overflow is decided. -/
def rounded (F : Format) (m : ℚ) : ℚ := significand F m * ulp F m

theorem ulp_pos (F m) : 0 < ulp F m := pow2_pos _

theorem scale_eq (F : Format) (m : ℚ) : m * pow2 (F.M - gridExp F m) = m / ulp F m := by
  unfold ulp
  have : pow2 (gridExp F m - F.M) * pow2 (F.M - gridExp F m) = 1 := by rw [← pow2_add]; simp [pow2]
  rw [eq_div_iff (pow2_ne_zero _), mul_assoc, mul_comm (pow2 (F.M - _)), this, mul_one]

theorem gridExp_ge (F m) : emin F ≤ gridExp F m := by rw [gridExp_eq_max]; exact le_max_right _ _

theorem div_ulp_lt {F : Format} {m : ℚ} (hm : 0 < m) : m / ulp F m < (2 ^ (F.M + 1) : ℕ) := by
  rw [div_lt_iff₀ (ulp_pos F m)]
  have : ((2 ^ (F.M+1) : ℕ) : ℚ) = pow2 ((F.M + 1 : ℕ) : ℤ) := rfl
  rw [this, ulp, ← pow2_add]
  refine lt_of_lt_of_le (floorLog2_spec hm).2 (pow2_le_iff.2 ?_)
  rw [gridExp_eq_max]; push_cast; have := le_max_left (floorLog2 m) (emin F); omega

theorem le_div_ulp {F : Format} {m : ℚ} (hm : 0 < m) (h : gridExp F m ≠ emin F) :
    ((2 ^ F.M : ℕ) : ℚ) ≤ m / ulp F m := by
  rw [le_div_iff₀ (ulp_pos F m)]
  have : ((2 ^ (F.M) : ℕ) : ℚ) = pow2 ((F.M : ℕ) : ℤ) := rfl
  rw [this, ulp, ← pow2_add]
  refine le_trans (pow2_le_iff.2 ?_) (floorLog2_spec hm).1
  rw [gridExp_eq_max] at *; omega

/-- Between a representable y below m and m there is a point of the grid of m. -/
theorem grid_below {F : Format} {m y : ℚ} (hm : 0 < m) (hy : Representable F y) (h : y ≤ m) :
    ∃ k : ℕ, y ≤ k * ulp F m ∧ k * ulp F m ≤ m := by
  obtain ⟨e, n, he, hn, rfl⟩ := hy
  by_cases hc : gridExp F m ≤ e
  · refine ⟨n * 2 ^ (e - gridExp F m).toNat, ?_, ?_⟩
    all_goals
      have : ((n * 2 ^ (e - gridExp F m).toNat : ℕ) : ℚ) * ulp F m = n * pow2 (e - F.M) := by
        rw [Nat.cast_mul, ← pow2_natCast, Int.toNat_of_nonneg (by omega), ulp, mul_assoc, ← pow2_add]; congr 2; ring
      rw [this]
    exact h
  · have hne : gridExp F m ≠ emin F := by omega
    refine ⟨2 ^ F.M, ?_, ?_⟩
    · have e1 : ((2 ^ F.M : ℕ) : ℚ) * ulp F m = pow2 (gridExp F m) := by
        rw [← pow2_natCast, ulp, ← pow2_add]; congr 1; ring
      rw [e1]
      calc (n:ℚ) * pow2 (e - F.M) ≤ (2 ^ (F.M + 1) : ℕ) * pow2 (e - F.M) :=
            mul_le_mul_of_nonneg_right (by exact_mod_cast hn) (pow2_pos _).le
        _ = pow2 (e + 1) := by rw [← pow2_natCast, ← pow2_add]; congr 1; push_cast; ring
        _ ≤ _ := pow2_le_iff.2 (by omega)
    · have := le_div_ulp hm hne
      rwa [le_div_iff₀ (ulp_pos F m)] at this

/-- Between m and a representable y above m there is a point of the grid of m. -/
theorem grid_above {F : Format} {m y : ℚ} (hm : 0 < m) (hy : Representable F y) (h : m ≤ y) :
    ∃ k : ℕ, m ≤ k * ulp F m ∧ k * ulp F m ≤ y := by
  have hy' := hy
  obtain ⟨e, n, he, hn, rfl⟩ := hy
  by_cases hc : gridExp F m ≤ e
  · refine ⟨n * 2 ^ (e - gridExp F m).toNat, ?_, ?_⟩
    all_goals
      have : ((n * 2 ^ (e - gridExp F m).toNat : ℕ) : ℚ) * ulp F m = n * pow2 (e - F.M) := by
        rw [Nat.cast_mul, ← pow2_natCast, Int.toNat_of_nonneg (by omega), ulp, mul_assoc, ← pow2_add]; congr 2; ring
      rw [this]
    exact h
  · have hne : gridExp F m ≠ emin F := by omega
    have e1 : ((2 ^ F.M : ℕ) : ℚ) * ulp F m = pow2 (gridExp F m) := by
        rw [← pow2_natCast, ulp, ← pow2_add]; congr 1; ring
    have h1 : (n:ℚ) * pow2 (e - F.M) ≤ pow2 (gridExp F m) := by
      calc (n:ℚ) * pow2 (e - F.M) ≤ (2 ^ (F.M + 1) : ℕ) * pow2 (e - F.M) :=
            mul_le_mul_of_nonneg_right (by exact_mod_cast hn) (pow2_pos _).le
        _ = pow2 (e + 1) := by rw [← pow2_natCast, ← pow2_add]; congr 1; push_cast; ring
        _ ≤ _ := pow2_le_iff.2 (by omega)
    have h2 := le_div_ulp hm hne
    rw [le_div_iff₀ (ulp_pos F m), e1] at h2
    refine ⟨2 ^ F.M, ?_, ?_⟩ <;> rw [e1]
    · linarith
    · linarith

theorem le_rounded {F : Format} {m y : ℚ} (hm : 0 < m) (hy : Representable F y) (h : y ≤ m) : y ≤ rounded F m := by
  obtain ⟨k, h1, h2⟩ := grid_below hm hy h
  refine h1.trans (mul_le_mul_of_nonneg_right ?_ (ulp_pos F m).le)
  have : (k:ℚ) ≤ m / ulp F m := by rwa [le_div_iff₀ (ulp_pos F m)]
  rw [significand, scale_eq]; exact_mod_cast le_rneInt_of_le this

theorem rounded_le {F : Format} {m y : ℚ} (hm : 0 < m) (hy : Representable F y) (h : m ≤ y) : rounded F m ≤ y := by
  obtain ⟨k, h1, h2⟩ := grid_above hm hy h
  refine le_trans (mul_le_mul_of_nonneg_right ?_ (ulp_pos F m).le) h2
  have : m / ulp F m ≤ k := by rwa [div_le_iff₀ (ulp_pos F m)]
  rw [significand, scale_eq]; exact_mod_cast rneInt_le_of_le (by have := ulp_pos F m; positivity) this

theorem representable_rounded {F : Format} {m : ℚ} (hm : 0 < m) : Representable F (rounded F m) := by
  refine ⟨gridExp F m, significand F m, gridExp_ge F m, ?_, rfl⟩
  rw [significand, scale_eq]
  exact rneInt_le_of_le (by have := ulp_pos F m; positivity) (div_ulp_lt hm).le

theorem rounded_eq_self {F : Format} {m : ℚ} (hm : 0 < m) (h : Representable F m) : rounded F m = m :=
  le_antisymm (rounded_le hm h le_rfl) (le_rounded hm h le_rfl)

theorem significand_le {F : Format} {m : ℚ} (hm : 0 < m) : significand F m ≤ 2 ^ (F.M + 1) := by
  rw [significand, scale_eq]; exact rneInt_le_of_le (by have := ulp_pos F m; positivity) (div_ulp_lt hm).le

theorem le_significand {F : Format} {m : ℚ} (hm : 0 < m) (h : gridExp F m ≠ emin F) : 2 ^ F.M ≤ significand F m := by
  rw [significand, scale_eq]; exact le_rneInt_of_le (le_div_ulp hm h)

/-- RoundToFormat said once (R17): infinity where the rounded magnitude passes the range, else a finite pattern of sign s
and that magnitude. -/
theorem roundToFormat_cases (F : Format) (s : Bool) {m : ℚ} (hm : 0 < m) :
    (pow2 (emax F + 1) ≤ rounded F m ∧ roundToFormat F s m = inf F s) ∨
    (rounded F m < pow2 (emax F + 1) ∧ isFinite (roundToFormat F s m) = true ∧ sign (roundToFormat F s m) = s ∧
      val (roundToFormat F s m) = signValue s * rounded F m ∧
        (isZero (roundToFormat F s m) = true ↔ rounded F m = 0) ∧
      (significand F m % 2 = 0 → (frac (roundToFormat F s m)).getLsbD 0 = false) ∧
      (pow2 (emin F) ≤ rounded F m → isNormal (roundToFormat F s m) = true)) := by
  have hM : ((2 ^ (F.M+1) : ℕ) : ℚ) = pow2 ((F.M + 1 : ℕ) : ℤ) := rfl
  have hM' : ((2 ^ F.M : ℕ) : ℚ) = pow2 (F.M : ℤ) := rfl
  have hu := ulp_pos F m
  have hge := gridExp_ge F m
  have lsb : ∀ x : Pattern F, (frac x).toNat % 2 = 0 → (frac x).getLsbD 0 = false := by
    intro x h; simp [BitVec.getLsbD, Nat.testBit_zero, h]
  by_cases hc : significand F m = 2 ^ (F.M + 1)
  · have hr : roundToFormat F s m = packGrid F s (gridExp F m + 1) (2 ^ F.M) := by
      unfold roundToFormat; exact if_pos hc
    have hv : rounded F m = pow2 (gridExp F m + 1) := by
      rw [rounded, hc, hM, ulp, ← pow2_add]; congr 1; push_cast; ring
    by_cases ho : gridExp F m + 1 > emax F
    · left; exact ⟨by rw [hv]; exact pow2_le_iff.2 (by omega), by rw [hr, packGrid, if_pos ho]⟩
    · right
      have h0 : 0 < 2 ^ F.M := by positivity
      obtain ⟨a, b, c, d, e, f⟩ :=
        packGrid_spec F s (gridExp F m + 1) (2 ^ F.M) (by omega) (by omega) (.inl le_rfl) (by rw [pow_succ]; omega)
      rw [hr]
      have hv2 : ((2 ^ F.M : ℕ):ℚ) * pow2 (gridExp F m + 1 - F.M) = rounded F m := by
        rw [hv, hM', ← pow2_add]
        congr 1
        ring
      refine ⟨by rw [hv]; exact pow2_lt_iff.2 (by omega), a, b, by rw [c, hv2], ?_, ?_, fun _ => f le_rfl⟩
      · rw [d]; constructor
        · intro h; have : 0 < 2 ^ F.M := by positivity
          omega
        · intro h; rw [hv] at h; exact absurd h (pow2_ne_zero _)
      · intro _; apply lsb; rw [e]; cases F <;> decide
  · have hr : roundToFormat F s m = packGrid F s (gridExp F m) (significand F m) := by
      unfold roundToFormat; exact if_neg hc
    have hlt : significand F m < 2 ^ (F.M + 1) := lt_of_le_of_ne (significand_le hm) hc
    by_cases ho : gridExp F m > emax F
    · left
      refine ⟨?_, by rw [hr, packGrid, if_pos ho]⟩
      have h1 := le_significand hm (F := F) (by have := emin_le_emax F; omega)
      calc pow2 (emax F + 1) ≤ pow2 (gridExp F m) := pow2_le_iff.2 (by omega)
        _ = (2 ^ F.M : ℕ) * ulp F m := by rw [hM', ulp, ← pow2_add]; congr 1; ring
        _ ≤ _ := mul_le_mul_of_nonneg_right (by exact_mod_cast h1) hu.le
    · right
      obtain ⟨a, b, c, d, e, f⟩ := packGrid_spec F s (gridExp F m) (significand F m) hge (by omega) (by
        by_cases h : gridExp F m = emin F
        · exact .inr h
        · exact .inl (le_significand hm h)) hlt
      rw [hr]
      refine ⟨?_, a, b, c, ?_, ?_, ?_⟩
      · calc rounded F m < (2 ^ (F.M + 1) : ℕ) * ulp F m := mul_lt_mul_of_pos_right (by exact_mod_cast hlt) hu
          _ = pow2 (gridExp F m + 1) := by rw [hM, ulp, ← pow2_add]; congr 1; push_cast; ring
          _ ≤ _ := pow2_le_iff.2 (by omega)
      · rw [d, rounded]; simp [hu.ne']
      · intro h; apply lsb; rw [e, h]
      · intro h; apply f
        by_cases hx : gridExp F m = emin F
        · have : ((2 ^ F.M : ℕ):ℚ) * ulp F m ≤ significand F m * ulp F m := by
            refine le_trans (le_of_eq ?_) h; rw [hM', ulp, ← pow2_add, hx]; congr 1; ring
          exact_mod_cast le_of_mul_le_mul_right this hu
        · exact le_significand hm hx

theorem representable_pow2 (F : Format) {k : ℤ} (h : emin F ≤ k) : Representable F (pow2 k) :=
  ⟨k, 2 ^ F.M, h, by rw [pow_succ]; omega, by rw [← pow2_natCast, ← pow2_add]; congr 1; ring⟩

/-- Every finite pattern is a packed grid point. -/
theorem finite_cases {F : Format} {x : Pattern F} (h : isFinite x = true) :
    ∃ (e : ℤ) (n : ℕ), emin F ≤ e ∧ e ≤ emax F ∧ n < 2 ^ (F.M + 1) ∧ (2 ^ F.M ≤ n ∨ e = emin F) ∧
      x = packGrid F (sign x) e n := by
  have hb := two_bias F
  have hbp := bias_pos F
  have hE : ((2 ^ F.E : ℕ) : ℤ) = 2 ^ F.E := by push_cast; rfl
  have hf := frac_lt x
  by_cases hn : isNormal x = true
  · have hn' := hn
    simp only [isNormal, Bool.and_eq_true, decide_eq_true_eq] at hn'
    have h2 : ((expf x).toNat : ℤ) < 2 ^ F.E - 1 := by have := hn'.2; omega
    have e3 : ((expf x).toNat - bias F + bias F).toNat = (expf x).toNat := by omega
    refine ⟨(expf x).toNat - bias F, 2 ^ F.M + (frac x).toNat, by unfold emin; omega, by unfold emax; omega,
      by rw [pow_succ]; omega, .inl (by omega), ?_⟩
    unfold packGrid
    rw [if_neg (by unfold emax; omega), if_pos (by omega), e3]
    conv_lhs => rw [← pack_fields x]
    congr 1
    · simp
    · simp
  · refine ⟨emin F, (frac x).toNat, le_rfl, emin_le_emax F, by rw [pow_succ]; omega, .inr rfl, ?_⟩
    unfold packGrid
    rw [if_neg (by have := emin_le_emax F; omega), if_neg (by omega)]
    conv_lhs => rw [← pack_fields x]
    have he : (expf x).toNat = 0 := by
      simp [isFinite, isZero, isSub] at h; simp at hn; rcases h with (h | h) | h
      · exact h.1
      · exact h.1
      · exact absurd h (by simp [hn])
    congr 1
    · exact BitVec.eq_of_toNat_eq (by simpa using he)
    · simp

/-- The magnitude of a finite pattern. -/
theorem finite_val {F : Format} {x : Pattern F} (h : isFinite x = true) :
    Representable F |val x| ∧ val x = signValue (sign x) * |val x| ∧ |val x| < pow2 (emax F + 1) ∧
    (isZero x = true ↔ |val x| = 0) := by
  obtain ⟨e, n, h1, h2, h3, h4, hx⟩ := finite_cases h
  obtain ⟨a, b, c, d, _⟩ := packGrid_spec F (sign x) e n h1 h2 h4 h3
  rw [← hx] at a b c d
  have hp := pow2_pos (e - F.M)
  have habs : |val x| = n * pow2 (e - F.M) := by
    rw [c, abs_mul, abs_of_nonneg (show (0:ℚ) ≤ n * pow2 (e - F.M) by positivity)]; cases sign x <;> simp [signValue]
  refine ⟨⟨e, n, h1, h3.le, habs⟩, by rw [habs, c], ?_, ?_⟩
  · rw [habs]
    have hM : ((2 ^ (F.M+1) : ℕ) : ℚ) = pow2 ((F.M + 1 : ℕ) : ℤ) := rfl
    calc (n:ℚ) * pow2 (e - F.M) < (2 ^ (F.M + 1) : ℕ) * pow2 (e - F.M) :=
          mul_lt_mul_of_pos_right (by exact_mod_cast h3) hp
      _ = pow2 (e + 1) := by rw [hM, ← pow2_add]; congr 1; push_cast; ring
      _ ≤ _ := pow2_le_iff.2 (by omega)
  · rw [d, habs]; simp [hp.ne']

/-- Two finite patterns of the same sign and value are the same pattern. -/
theorem finite_ext {F : Format} {x y : Pattern F} (hx : isFinite x = true) (hy : isFinite y = true)
    (hs : sign x = sign y) (hv : val x = val y) :
    x = y := by
  obtain ⟨e, n, h1, h2, h3, h4, ex⟩ := finite_cases hx
  obtain ⟨e', n', h1', h2', h3', h4', ey⟩ := finite_cases hy
  obtain ⟨a, b, c, d, _⟩ := packGrid_spec F (sign x) e n h1 h2 h4 h3
  obtain ⟨a', b', c', d', _⟩ := packGrid_spec F (sign y) e' n' h1' h2' h4' h3'
  rw [← ex] at c; rw [← ey] at c'
  have hsv : signValue (sign y) ≠ 0 := by cases sign y <;> simp [signValue]
  have hm : (n:ℚ) * pow2 (e - F.M) = n' * pow2 (e' - F.M) := by
    rw [c, c', hs] at hv; exact mul_left_cancel₀ hsv hv
  have key : ∀ (e e' : ℤ) (n n' : ℕ),
    emin F ≤ e → emin F ≤ e' → (2 ^ F.M ≤ n' ∨ e' = emin F) → n < 2 ^ (F.M + 1) →
    (n:ℚ) * pow2 (e - F.M) = n' * pow2 (e' - F.M) → e' ≤ e := by
    intro e e' n n' h1 h1' h4' h3 hm
    by_contra hlt; push Not at hlt
    rcases h4' with h | h
    · have hM : ((2 ^ (F.M+1) : ℕ) : ℚ) = pow2 ((F.M + 1 : ℕ) : ℤ) := rfl
      have hM' : ((2 ^ (F.M) : ℕ) : ℚ) = pow2 ((F.M : ℕ) : ℤ) := rfl
      have : (n:ℚ) * pow2 (e - F.M) < n' * pow2 (e' - F.M) := by
        calc (n:ℚ) * pow2 (e - F.M) < (2 ^ (F.M + 1) : ℕ) * pow2 (e - F.M) :=
              mul_lt_mul_of_pos_right (by exact_mod_cast h3) (pow2_pos _)
          _ = pow2 (e + 1) := by rw [hM, ← pow2_add]; congr 1; push_cast; ring
          _ ≤ pow2 e' := pow2_le_iff.2 (by omega)
          _ = (2 ^ F.M : ℕ) * pow2 (e' - F.M) := by rw [hM', ← pow2_add]; congr 1; ring
          _ ≤ _ := mul_le_mul_of_nonneg_right (by exact_mod_cast h) (pow2_pos _).le
      linarith
    · omega
  have : e = e' := le_antisymm (key e' e n' n h1' h1 h4 h3' hm.symm) (key e e' n n' h1 h1' h4' h3 hm)
  subst this
  have : n = n' := by exact_mod_cast mul_right_cancel₀ (pow2_ne_zero _) hm
  subst this
  rw [ex, ey, hs]

theorem abs_signValue_mul (s : Bool) (a : ℚ) : |signValue s * a| = |a| := by cases s <;> simp [signValue]

theorem emin_le_of_isNormal {F : Format} {x : Pattern F} (h : isNormal x = true) : pow2 (emin F) ≤ |val x| := by
  rw [val, if_pos h, mul_assoc, abs_signValue_mul, abs_of_nonneg (mul_nonneg (pow2_pos _).le (by positivity))]
  have h1 : (1:ℚ) ≤ 1 + ((frac x).toNat : ℚ) / (2 ^ F.M : ℕ) := by
    have : (0:ℚ) ≤ ((frac x).toNat : ℚ) / (2 ^ F.M : ℕ) := by positivity
    linarith
  refine le_trans (pow2_le_iff.2 ?_) (le_mul_of_one_le_right (pow2_pos _).le h1)
  simp only [isNormal, Bool.and_eq_true, decide_eq_true_eq] at h
  unfold emin
  omega

theorem lt_emin_of_isSub {F : Format} {x : Pattern F} (h : isSub x = true) : |val x| < pow2 (emin F) := by
  have hn : isNormal x = false := by
    simp only [isSub, isNormal, Bool.and_eq_true, beq_iff_eq, bne_iff_ne] at *
    rw [h.1]
    simp
  rw [val, hn, if_neg (by simp), if_pos h, mul_assoc, abs_signValue_mul,
    abs_of_nonneg (mul_nonneg (pow2_pos _).le (by positivity))]
  have : ((frac x).toNat : ℚ) / (2 ^ F.M : ℕ) < 1 := by
    rw [div_lt_one (by positivity)]
    exact_mod_cast frac_lt x
  exact mul_lt_of_lt_one_right (pow2_pos _) this

/-- A finite nonzero pattern is subnormal exactly below 2^emin (R13, R14). -/
theorem isSub_iff_lt_emin {F : Format} {x : Pattern F} (hx : isFinite x = true) (hz : isZero x = false) :
    isSub x = true ↔ |val x| < pow2 (emin F) := by
  refine ⟨lt_emin_of_isSub, fun h => ?_⟩
  simp only [isFinite, hz, Bool.false_or, Bool.or_eq_true] at hx
  rcases hx with h' | h'
  · exact h'
  · exact absurd (emin_le_of_isNormal h') (not_le.2 h)

/-- A representable magnitude is that of an integer multiple of the smallest spacing. -/
theorem multiple_of_representable {F : Format} {z : ℚ} (h : Representable F |z|) :
    ∃ k : ℤ, z = k * pow2 (emin F - F.M) := by
  obtain ⟨e, n, h1, -, h3⟩ := h
  have hz : |z| = ((n * 2 ^ (e - emin F).toNat : ℕ) : ℚ) * pow2 (emin F - F.M) := by
    rw [h3, Nat.cast_mul, mul_assoc, ← pow2_natCast, ← pow2_add]
    congr 2
    omega
  rcases abs_choice z with h | h <;> rw [h] at hz
  · exact ⟨(n * 2 ^ (e - emin F).toNat : ℕ), by rw [hz]; simp⟩
  · exact ⟨-(n * 2 ^ (e - emin F).toNat : ℕ), by rw [← neg_neg z, hz]; push_cast; ring⟩

/-- A sum below 2^emin of representable values is representable, so no rounding changes it (R73). -/
theorem representable_add {F : Format} {x y : ℚ} (hx : Representable F |x|) (hy : Representable F |y|)
    (hlt : |x + y| < pow2 (emin F)) : Representable F |x + y| := by
  obtain ⟨j, hj⟩ := multiple_of_representable hx
  obtain ⟨k, hk⟩ := multiple_of_representable hy
  have hp := pow2_pos (emin F - F.M)
  have e : |x + y| = ((j + k).natAbs : ℚ) * pow2 (emin F - F.M) := by
    rw [hj, hk, ← add_mul, abs_mul, abs_of_pos hp]
    congr 1
    rw [← Int.cast_add, ← Int.cast_abs, Int.abs_eq_natAbs]
    rfl
  refine ⟨emin F, (j + k).natAbs, le_rfl, ?_, e⟩
  rw [e] at hlt
  have h1 : ((j + k).natAbs : ℚ) < (2 ^ F.M : ℕ) := by
    refine lt_of_mul_lt_mul_right (hlt.trans_le (le_of_eq ?_)) hp.le
    rw [← pow2_natCast, ← pow2_add]
    congr 1
    ring
  have h2 : (j + k).natAbs < 2 ^ F.M := by exact_mod_cast h1
  rw [pow_succ]
  omega

end Sys2Proof.Machine
end

