-- ==== Sys2Proof/Laws/Arith.lean ====
section
/-! SUPPORT. The classes, and Widen, ConvertD and the four binary64 operations on each class (00_scope.md R13, R21, R22;
41_arith.md R64, R66, R68, R70). -/

namespace Sys2Proof.Machine

/-- Every pattern is a NaN, an infinity or finite (R13). -/
theorem class_cases (F : Format) (x : Pattern F) : isNaN x = true ∨ isInf x = true ∨ isFinite x = true := by
  have h1 := expf_lt x
  simp only [isFinite, isZero, isSub, isNormal, isInf, isNaN]
  by_cases hf : (frac x).toNat = 0 <;> simp [hf] <;>
    by_cases he : (expf x).toNat = 2 ^ F.E - 1 <;> simp [he] <;>
    by_cases h0 : (expf x).toNat = 0 <;> simp [h0] <;> omega

theorem not_nan_inf_of_finite {F : Format} {x : Pattern F} (h : isFinite x = true) :
    isNaN x = false ∧ isInf x = false := by
  have h1 := expf_lt x
  have h2 := two_le_pow_exponent F
  simp only [isFinite, isZero, isSub, isNormal, isInf, isNaN] at *
  simp at h ⊢
  have h0 : (expf x).toNat ≠ 2 ^ F.E - 1 := by
    rcases h with (h | h) | h
    · rw [h.1]; simp; omega
    · rw [h.1]; simp; omega
    · omega
  exact ⟨fun h => absurd h h0, fun h => absurd h h0⟩

theorem not_nan_finite_zero_of_inf {F : Format} {x : Pattern F} (h : isInf x = true) :
    isNaN x = false ∧ isFinite x = false ∧ isZero x = false := by
  have h2 := two_le_pow_exponent F
  have hx : isNaN x = false := by
    simp [isInf, isNaN] at *
    intro _
    exact h.2
  have hf : isFinite x = false := by
    by_contra hc
    simp at hc
    have := (not_nan_inf_of_finite hc).2
    rw [h] at this
    cases this
  refine ⟨hx, hf, ?_⟩
  simp [isFinite] at hf; exact hf.1.1

theorem isFinite_of_isZero {F : Format} {x : Pattern F} (h : isZero x = true) :
    isFinite x = true := by simp [isFinite, h]

theorem val_abs_pos {F : Format} {x : Pattern F} (hx : isFinite x = true) (hz : isZero x = false) : 0 < |val x| := by
  rw [abs_pos]; intro h
  have := (finite_val hx).2.2.2.2 (by rw [h]; simp)
  rw [this] at hz; cases hz

theorem isFinite_zero (F s) : isFinite (zero F s) = true := isFinite_of_isZero (by simp)

theorem val_of_isZero {F : Format} {x : Pattern F} (h : isZero x = true) : val x = 0 := by
  have := (finite_val (isFinite_of_isZero h)).2.2.2.1 h
  exact abs_eq_zero.1 this

@[simp] theorem isNaN_inf (F s) : isNaN (inf F s) = false := (not_nan_finite_zero_of_inf (isInf_inf F s)).1

@[simp] theorem isNaN_zero (F s) : isNaN (zero F s) = false := (not_nan_inf_of_finite (isFinite_zero F s)).1

@[simp] theorem isInf_zero (F s) : isInf (zero F s) = false := (not_nan_inf_of_finite (isFinite_zero F s)).2

@[simp] theorem isZero_inf (F s) : isZero (inf F s) = false := (not_nan_finite_zero_of_inf (isInf_inf F s)).2.2

@[simp] theorem neg_of_inf (F s) : neg (inf F s) = inf F (!s) := by
  apply pattern_ext <;> simp

@[simp] theorem neg_of_zero (F s) : neg (zero F s) = zero F (!s) := by
  apply pattern_ext <;> simp

/-- Neg negates the value (R15). -/
theorem val_neg {F : Format} (x : Pattern F) : val (neg x) = - val x := by
  simp only [val, isNormal_neg, isSub_neg, sign_neg, expf_neg, frac_neg]
  cases sign x <;> split <;> simp [signValue] <;> split <;> simp

/-- ConvertD of a zero (R22). -/
theorem convertD_zero (P F) {d : Pattern .D} (h : isZero d = true) : convertD P F d = zero F.fmt (sign d) := by
  have := not_nan_inf_of_finite (isFinite_of_isZero h)
  simp [convertD, this, h]

/-- ConvertD of an infinity (R22). -/
theorem convertD_inf (P F) {d : Pattern .D} (h : isInf d = true) : convertD P F d = inf F.fmt (sign d) := by
  have := not_nan_finite_zero_of_inf h
  simp [convertD, this, h]

/-- ConvertD of a finite pattern that is not zero rounds once (R22). -/
theorem convertD_finite (P F) {d : Pattern .D} (h : isFinite d = true) (hz : isZero d = false) :
    convertD P F d = roundToFormat F.fmt (sign d) |val d| := by
  have := not_nan_inf_of_finite h
  simp [convertD, this, hz]

/-- Widen of a zero (R21). -/
theorem widen_zero (P) (F : Prec) {d : Pattern F.fmt} (h : isZero d = true) : widen P F d = zero .D (sign d) := by
  have := not_nan_inf_of_finite (isFinite_of_isZero h)
  simp [widen, this, h]

/-- Widen of an infinity (R21). -/
theorem widen_inf (P) (F : Prec) {d : Pattern F.fmt} (h : isInf d = true) : widen P F d = inf .D (sign d) := by
  have := not_nan_finite_zero_of_inf h
  simp [widen, this, h]

/-- Widen of a finite pattern that is not zero (R21). -/
theorem widen_finite (P) (F : Prec) {d : Pattern F.fmt} (h : isFinite d = true) (hz : isZero d = false) :
    widen P F d = roundToFormat .D (sign d) |val d| := by
  have := not_nan_inf_of_finite h
  simp [widen, this, hz]

/-- Every magnitude of H or S is one of D (R11). -/
theorem representable_widen (F : Prec) {y : ℚ} (h : Representable F.fmt y) : Representable .D y := by
  obtain ⟨e, n, h1, h2, rfl⟩ := h
  have hM : F.fmt.M ≤ 23 := by cases F <;> decide
  have he : (-126:ℤ) ≤ emin F.fmt := by cases F <;> decide
  have hD : emin .D = -1022 := by decide
  have hDM : Format.D.M = 52 := rfl
  refine ⟨e + (52 - F.fmt.M), n, by rw [hD]; omega, h2.trans ?_, ?_⟩
  · exact Nat.pow_le_pow_right (by norm_num) (by rw [hDM]; omega)
  · rw [hDM]; congr 2; push_cast; ring

/-- The fields of a quieted pattern (R20). -/
theorem quiet_fields {F : Format} (x : Pattern F) :
    sign (quiet x) = sign x ∧ expf (quiet x) = expf x ∧
    frac (quiet x) = frac x ||| BitVec.twoPow F.M (F.M - 1) := by
  have hw := width_eq F
  have h1 := fraction_width_pos F
  refine ⟨?_, ?_, ?_⟩
  · simp [sign, quiet, BitVec.getLsbD_twoPow]; intro _ h; omega
  · apply BitVec.eq_of_getLsbD_eq; intro i hi
    simp [expf, quiet, BitVec.getLsbD_twoPow, hi]; intro _ h; omega
  · apply BitVec.eq_of_getLsbD_eq; intro i hi
    simp [frac, quiet, BitVec.getLsbD_twoPow, hi]
    have : F.M - 1 < F.w := by omega
    have : F.M - 1 < F.M := by omega
    have h3 : F.M - 1 < F.M + (F.E + 1) := by omega
    simp [*, eq_comm]

theorem quiet_bit_ne_zero (F : Format) (f : BitVec F.M) :
    (f ||| BitVec.twoPow F.M (F.M - 1)).toNat ≠ 0 ∧
    (f ||| BitVec.twoPow F.M (F.M - 1)).getLsbD (F.M - 1) = true := by
  have h1 := fraction_width_pos F
  have hb : (f ||| BitVec.twoPow F.M (F.M - 1)).getLsbD (F.M - 1) = true := by
    simp [BitVec.getLsbD_twoPow]; right; omega
  refine ⟨fun h => ?_, hb⟩
  have : (f ||| BitVec.twoPow F.M (F.M - 1)) = 0 := BitVec.eq_of_toNat_eq (by simpa using h)
  rw [this] at hb; simp at hb

/-- A quieted pattern with an all-ones exponent is a quiet NaN (R20). -/
theorem isNaN_quiet {F : Format} {x : Pattern F} (h : expf x = BitVec.allOnes F.E) :
    isNaN (quiet x) = true ∧ isQuiet (quiet x) = true := by
  obtain ⟨a, b, c⟩ := quiet_fields x
  have hn : isNaN (quiet x) = true := by
    simp only [isNaN, b, c, h, Bool.and_eq_true, beq_iff_eq, bne_iff_ne]
    exact ⟨by simp, (quiet_bit_ne_zero F _).1⟩
  exact ⟨hn, by simp only [isQuiet, hn, c, (quiet_bit_ne_zero F _).2]; rfl⟩

theorem expf_of_isNaN {F : Format} {x : Pattern F} (h : isNaN x = true) : expf x = BitVec.allOnes F.E := by
  simp only [isNaN, Bool.and_eq_true, beq_iff_eq] at h
  exact BitVec.eq_of_toNat_eq (by rw [h.1]; simp)


/-- A NaN operand: every binary64 operation gives propNaN of the two operands as given (R64, R66, R68, R70). -/
theorem op64_of_isNaN (P : NaNPolicy) (op : Op) {x y : Pattern .D} (h : isNaN x = true ∨ isNaN y = true) :
    op64 P op x y = P.propNaN .D x y := by
  have h' : (isNaN x || isNaN y) = true := by simpa using h
  cases op <;> simp only [op64, add64, sub64, mul64, div64, h', if_true]

/-- ADD64 of finite patterns whose exact sum is not zero (R64). -/
theorem add64_finite (P : NaNPolicy) {x y : Pattern .D} (hx : isFinite x = true) (hy : isFinite y = true)
    (h : val x + val y ≠ 0) :
    add64 P x y = roundToFormat .D (decide (val x + val y < 0)) |val x + val y| := by
  have h1 := not_nan_inf_of_finite hx
  have h2 := not_nan_inf_of_finite hy
  have h3 : (isZero x && isZero y) = false := by
    by_contra hc
    simp at hc
    rw [val_of_isZero hc.1, val_of_isZero hc.2] at h
    simp at h
  simp [add64, h1, h2, h3, h]

/-- ADD64 of finite patterns whose exact sum is zero is a zero (R64). -/
theorem isZero_add64 (P : NaNPolicy) {x y : Pattern .D} (hx : isFinite x = true) (hy : isFinite y = true)
    (h : val x + val y = 0) : isZero (add64 P x y) = true := by
  have h1 := not_nan_inf_of_finite hx
  have h2 := not_nan_inf_of_finite hy
  by_cases hc : isZero x = true ∧ isZero y = true <;> simp [add64, h1, h2, hc, h]

theorem isFinite_neg {F : Format} (x : Pattern F) : isFinite (neg x) = isFinite x := by simp [isFinite]

/-- SUB64 of patterns that are not NaN is ADD64 of the first and the negated second (R66). -/
theorem sub64_eq (P : NaNPolicy) {x y : Pattern .D} (hx : isNaN x = false) (hy : isNaN y = false) :
    sub64 P x y = add64 P x (neg y) := by simp [sub64, hx, hy]

/-- MUL64 of finite nonzero patterns (R68). -/
theorem mul64_finite (P : NaNPolicy) {x y : Pattern .D} (hx : isFinite x = true) (hy : isFinite y = true)
    (zx : isZero x = false) (zy : isZero y = false) :
    mul64 P x y = roundToFormat .D (sign x ^^ sign y) |val x * val y| := by
  simp [mul64, not_nan_inf_of_finite hx, not_nan_inf_of_finite hy, zx, zy]

/-- MUL64 of finite patterns one of which is a zero (R68). -/
theorem mul64_zero (P : NaNPolicy) {x y : Pattern .D} (hx : isFinite x = true) (hy : isFinite y = true)
    (h : isZero x = true ∨ isZero y = true) : mul64 P x y = zero .D (sign x ^^ sign y) := by
  rcases h with h | h <;> simp [mul64, not_nan_inf_of_finite hx, not_nan_inf_of_finite hy, h]

/-- DIV64 of finite nonzero patterns (R70). -/
theorem div64_finite (P : NaNPolicy) {x y : Pattern .D} (hx : isFinite x = true) (hy : isFinite y = true)
    (zx : isZero x = false) (zy : isZero y = false) :
    div64 P x y = roundToFormat .D (sign x ^^ sign y) |val x / val y| := by
  simp [div64, not_nan_inf_of_finite hx, not_nan_inf_of_finite hy, zx, zy]

/-- DIV64 of a zero by a finite nonzero pattern (R70). -/
theorem div64_zero (P : NaNPolicy) {x y : Pattern .D} (hx : isZero x = true) (hy : isFinite y = true)
    (zy : isZero y = false) : div64 P x y = zero .D (sign x ^^ sign y) := by
  simp [div64, not_nan_inf_of_finite (isFinite_of_isZero hx), not_nan_inf_of_finite hy, hx, zy]

end Sys2Proof.Machine
end

