-- ==== Sys2Proof/Laws/Chars.lean ====
section
/-! SUPPORT. The strings of XTR and GRP: lengths, alphabets and the shape of grouping (42_extract.md, 43_group.md). -/

namespace Sys2Proof.Machine

theorem hexString_length (F : Format) (x : Pattern F) : (hexString F x).length = 2 + F.w / 4 := by
  simp [hexString]; omega

theorem binString_length (F : Format) (x : Pattern F) : (binString F x).length = F.w := by simp [binString]

theorem isBinChar_bitChar (b : Bool) : isBinChar (bitChar b) = true := by cases b <;> decide

theorem isHexChar_hexDigit (v : BitVec 4) : isHexChar (hexDigit v) = true := by
  revert v; decide

theorem inAlphabet_of_isBinChar {c : Byte} (h : isBinChar c = true) : inAlphabet c = true := by
  revert c; decide

theorem binString_all (F : Format) (x : Pattern F) : (binString F x).all isBinChar = true := by
  simp [binString, isBinChar_bitChar]

theorem nibbleChars_all (c : Byte) : (nibbleChars c).all isBinChar = true := by
  simp [nibbleChars, isBinChar_bitChar]

/-- The string GRP groups is a binary string. -/
theorem groupSource_all {s b : Text} (h : groupSource s = some b) : b.all isBinChar = true := by
  unfold groupSource at h
  split at h
  · split at h
    · split at h
      · cases h
      · split at h
        · cases h
          rw [List.all_flatMap]
          simp only [nibbleChars_all]
          simp
        · cases h
    · split at h
      · cases h; assumption
      · cases h
  · split at h
    · cases h; assumption
    · cases h

/-- A plain binary string is what GRP groups. -/
theorem groupSource_plain {s : Text} (h : s.all isBinChar = true) : groupSource s = some s := by
  unfold groupSource
  split
  · rename_i c0 c1 r
    rw [if_neg, if_pos h]
    rintro ⟨-, rfl⟩
    simp [isBinChar, xChar] at h
  · rw [if_pos h]

/-- Grouping step by step: a full run, a space, the rest. -/
theorem groupRuns_cons {a b c d e : Byte} {r : Text} :
    groupRuns (a :: b :: c :: d :: e :: r) = [a, b, c, d, spaceChar] ++ groupRuns (e :: r) := by
  have hne : ∀ t : Text, t ≠ [] → runsOf4 t ≠ [] := by
    intro t ht
    unfold runsOf4
    split <;> simp_all
  have hc := hne (e :: r) (by simp)
  unfold groupRuns
  rw [runsOf4]
  cases hr : runsOf4 (e :: r) with
  | nil => exact absurd hr hc
  | cons x xs => simp [List.intercalate]

/-- Grouping a string of four characters or fewer leaves it as it is. -/
theorem groupRuns_short {t : Text} (h : t.length ≤ 4) : groupRuns t = t := by
  match t, h with
  | [], _ | [_], _ | [_, _], _ | [_, _, _], _ | [_, _, _, _], _ => rfl

theorem tooLong_of_le {limit : GrpMaxChars} {n : Nat} (h : n ≤ 32) : tooLong limit n = false := by
  simp [tooLong]; omega

/-- GRP of a plain binary string of at most 32 characters is its grouped runs, whatever GRP_MAX_CHARS is. -/
theorem groupString_plain {limit : GrpMaxChars} {s : Text} (h : s.all isBinChar = true) (hn : s.length ≤ 32) :
    groupString limit s = some (groupRuns s) := by
  simp [groupString, tooLong_of_le hn, groupSource_plain h]

/-- GRP of the binString of an H or S pattern. -/
theorem groupString_binString (limit : GrpMaxChars) (F : Prec) (x : Pattern F.fmt) :
    groupString limit (binString F.fmt x) = some (groupRuns (binString F.fmt x)) :=
  groupString_plain (binString_all _ _) (by rw [binString_length]; cases F <;> decide)

end Sys2Proof.Machine
end

