-- ==== Sys2Proof/Laws/State.lean ====
section
/-! SUPPORT. One lemma per field of State for each named update: completing, raising, sampling, resetting, and placing
the next command. -/

namespace Sys2Proof.Machine

@[simp] theorem complete_status (s : State) (k : Kind) (r : Response) : (s.complete k r).status = statusDone k := rfl
@[simp] theorem complete_resp (s : State) (k : Kind) (r : Response) : (s.complete k r).resp = r := rfl
@[simp] theorem complete_ports (s : State) (k : Kind) (r : Response) : (s.complete k r).ports = s.ports := rfl
@[simp] theorem complete_host (s : State) (k : Kind) (r : Response) : (s.complete k r).host = s.host := rfl
@[simp] theorem complete_delivered (s : State) (k : Kind) (r : Response) :
    (s.complete k r).delivered = s.delivered := rfl

@[simp] theorem completeNum_status (s : State) (v : BitVec 32) : (s.completeNum v).status = statusDone .num := rfl
@[simp] theorem completeNum_resp (s : State) (v : BitVec 32) :
    (s.completeNum v).resp = { Response.unwritten with resR := some v } := rfl
@[simp] theorem completeNum_ports (s : State) (v : BitVec 32) : (s.completeNum v).ports = s.ports := rfl
@[simp] theorem completeNum_host (s : State) (v : BitVec 32) : (s.completeNum v).host = s.host := rfl
@[simp] theorem completeNum_delivered (s : State) (v : BitVec 32) : (s.completeNum v).delivered = s.delivered := rfl

@[simp] theorem raise_status (s : State) (e : CmdError) : (s.raise e).status = statusError e := rfl
@[simp] theorem raise_resp (s : State) (e : CmdError) : (s.raise e).resp = .unwritten := rfl
@[simp] theorem raise_ports (s : State) (e : CmdError) : (s.raise e).ports = s.ports := rfl
@[simp] theorem raise_host (s : State) (e : CmdError) : (s.raise e).host = s.host := rfl
@[simp] theorem raise_delivered (s : State) (e : CmdError) : (s.raise e).delivered = s.delivered := rfl

@[simp] theorem sample_status (s : State) (p : Ports) : (s.sample p).status = s.status := rfl
@[simp] theorem sample_resp (s : State) (p : Ports) : (s.sample p).resp = s.resp := rfl
@[simp] theorem sample_ports (s : State) (p : Ports) : (s.sample p).ports = p := rfl
@[simp] theorem sample_host (s : State) (p : Ports) : (s.sample p).host = s.host := rfl
@[simp] theorem sample_delivered (s : State) (p : Ports) : (s.sample p).delivered = s.delivered := rfl

@[simp] theorem resetUnit_status (s : State) : s.resetUnit.status = 0x00 := rfl
@[simp] theorem resetUnit_resp (s : State) : s.resetUnit.resp = .unwritten := rfl
@[simp] theorem resetUnit_ports (s : State) : s.resetUnit.ports = s.ports := rfl
@[simp] theorem resetUnit_host (s : State) : s.resetUnit.host = s.host := rfl
@[simp] theorem resetUnit_delivered (s : State) : s.resetUnit.delivered = s.delivered := rfl

@[simp] theorem withFetchWord_status (s : State) (n w : Nat) : (s.withFetchWord n w).status = s.status := rfl
@[simp] theorem withFetchWord_resp (s : State) (n w : Nat) : (s.withFetchWord n w).resp = s.resp := rfl
@[simp] theorem withFetchWord_ports (s : State) (n w : Nat) : (s.withFetchWord n w).ports = s.ports := rfl
@[simp] theorem withFetchWord_delivered (s : State) (n w : Nat) :
    (s.withFetchWord n w).delivered = s.delivered := rfl

theorem err_of_done {s : State} {k : Kind} (h : s.status = statusDone k) : s.err = 0 := by
  rw [State.err, h]; cases k <;> rfl

theorem kindField_of_done {s : State} {k : Kind} (h : s.status = statusDone k) : s.kindField = k.code := by
  rw [State.kindField, h]; cases k <;> rfl

theorem err_of_error {s : State} {e : CmdError} (h : s.status = statusError e) : s.err = e.code := by
  rw [State.err, h]; cases e <;> rfl

theorem kindField_of_error {s : State} {e : CmdError} (h : s.status = statusError e) :
    s.kindField = Kind.none.code := by
  rw [State.kindField, h]; cases e <;> rfl

theorem Kind.code_injective {j k : Kind} (h : j.code = k.code) : j = k := by
  revert h; cases j <;> cases k <;> decide

@[simp] theorem unwritten_txt (k : Fin 6) : Response.unwritten.txt k = none := by
  match k with
  | 0 | 1 | 2 | 3 | 4 | 5 => rfl

end Sys2Proof.Machine
end

