-- ==== Sys2Proof/Laws/Ops.lean ====
section
/-! SUPPORT. Everything each shared operation and one step can do, said once. -/

namespace Sys2Proof.Machine

/-- A host read that goes on delivers the value and changes nothing else. -/
theorem hostRead_next {r : RegName} {s t : State} (h : hostRead r s = .next t) :
    ∃ v, s.readReg r = some v ∧ t = { s with delivered := v :: s.delivered } := by
  unfold hostRead at h
  split at h
  · rename_i v hv
    exact ⟨v, hv, by simpa using h.symm⟩
  · cases h

/-- A host read stops only by the fault of an Unwritten register. -/
theorem hostRead_stop {r : RegName} {s : State} (h : s.readReg r = none) :
    hostRead r s = .fault (.unwrittenRead r) := by simp [hostRead, h]

/-- GRP completes with the grouped string or raises MalformedInput. -/
theorem execGrp_cases (s : State) :
    (∃ out, groupString Config.grpMaxChars s.ports.sin = some out ∧
      execGrp s = .next (s.complete .grp { Response.unwritten with txt0 := some out })) ∨
    (groupString Config.grpMaxChars s.ports.sin = none ∧ execGrp s = .next (s.raise .malformed)) := by
  cases h : groupString Config.grpMaxChars s.ports.sin with
  | some out => exact .inl ⟨out, rfl, by simp [execGrp, operandSIN, h]⟩
  | none => exact .inr ⟨rfl, by simp [execGrp, operandSIN, h]⟩

/-- Reading a register looks at STATUS and the response registers alone. -/
theorem readReg_congr {s t : State} (h1 : s.status = t.status) (h2 : s.resp = t.resp) (r : RegName) :
    s.readReg r = t.readReg r := by
  cases r <;> simp [State.readReg, h1, h2]

/-- The response registers hold values exactly where the kind says (R31). -/
def HoldsFor (k : Kind) (r : Response) : Prop :=
  r.resR.isSome = k.writes .resR ∧ r.resA.isSome = k.writes .resA ∧ r.resB.isSome = k.writes .resB ∧
    ∀ j, (r.txt j).isSome = k.writes (.txt j)

theorem holdsFor_unwritten : HoldsFor .none .unwritten := ⟨rfl, rfl, rfl, by decide⟩

theorem holdsFor_num (v : BitVec 32) : HoldsFor .num { Response.unwritten with resR := some v } :=
  ⟨rfl, rfl, rfl, fun j => match j with | 0 | 1 | 2 | 3 | 4 | 5 => rfl⟩

theorem holdsFor_xtr (h b : Text) :
    HoldsFor .xtr { Response.unwritten with txt0 := some h, txt1 := some b } :=
  ⟨rfl, rfl, rfl, fun j => match j with | 0 | 1 | 2 | 3 | 4 | 5 => rfl⟩

theorem holdsFor_grp (g : Text) : HoldsFor .grp { Response.unwritten with txt0 := some g } :=
  ⟨rfl, rfl, rfl, fun j => match j with | 0 | 1 | 2 | 3 | 4 | 5 => rfl⟩

/-- The outputs of RUN, with each grouped string a value (R86). -/
theorem runOutputs_eq (F : Prec) (a b r : Pattern F.fmt) :
    runOutputs F a b r =
      { resR := some (resultWord F r), resA := some (resultWord F a), resB := some (resultWord F b),
        txt0 := some (hexString F.fmt a), txt1 := some (groupRuns (binString F.fmt a)),
        txt2 := some (hexString F.fmt b), txt3 := some (groupRuns (binString F.fmt b)),
        txt4 := some (hexString F.fmt r), txt5 := some (groupRuns (binString F.fmt r)) } := by
  simp only [runOutputs, groupString_binString]

theorem holdsFor_run (F : Prec) (a b r : Pattern F.fmt) : HoldsFor .run (runOutputs F a b r) := by
  rw [runOutputs_eq]
  exact ⟨rfl, rfl, rfl, fun j => match j with | 0 | 1 | 2 | 3 | 4 | 5 => rfl⟩

/-- A register of a state holds a value exactly where `HoldsFor` says. -/
theorem readReg_isSome_of_holdsFor {s : State} {k : Kind} (h : HoldsFor k s.resp) (r : RegName) :
    (s.readReg r).isSome = k.writes r := by
  obtain ⟨h1, h2, h3, h4⟩ := h
  cases r with
  | status => cases k <;> rfl
  | resR => simpa [State.readReg] using h1
  | resA => simpa [State.readReg] using h2
  | resB => simpa [State.readReg] using h3
  | txt j => simpa [State.readReg] using h4 j

/-- What a command can do: complete with its kind and the registers the kind names, or (GRP alone) raise
MalformedInput. -/
theorem exec_cases (i : Instr) (s : State) :
    (∃ r, exec i s = .next (s.complete (kindOf i) r) ∧ HoldsFor (kindOf i) r ∧
      (i = .grp → (groupString Config.grpMaxChars s.ports.sin).isSome = true)) ∨
    (i = .grp ∧ groupString Config.grpMaxChars s.ports.sin = none ∧ exec i s = .next (s.raise .malformed)) := by
  cases i with
  | grp =>
    rcases execGrp_cases s with ⟨out, h0, h⟩ | ⟨h1, h2⟩
    · exact .inl ⟨_, h, holdsFor_grp out, by simp [h0]⟩
    · exact .inr ⟨rfl, h1, h2⟩
  | add | sub | mul | div | cvt => exact .inl ⟨_, rfl, holdsFor_num _, by simp⟩
  | xtr => exact .inl ⟨_, rfl, holdsFor_xtr .., by simp⟩
  | runAdd | runSub | runMul | runDiv => exact .inl ⟨_, rfl, holdsFor_run .., by simp⟩

/-- What one step can do, by the host's next interaction. -/
theorem step_cases {s t : State} (h : step s = .next t) :
    (s.host = [] ∧ t = s) ∨
    (∃ p act i, s.host = .issue p :: act ∧ decode p.cmd = .ok i ∧
      exec i { s with ports := p, host := act } = .next t) ∨
    (∃ p act e, s.host = .issue p :: act ∧ decode p.cmd = .error e ∧
      t = State.raise { s with ports := p, host := act } .unsup) ∨
    (∃ r act v, s.host = .read r :: act ∧ s.readReg r = some v ∧
      t = { s with host := act, delivered := v :: s.delivered }) ∨
    (∃ act, s.host = .reset :: act ∧ t = State.resetUnit { s with host := act }) := by
  unfold step at h
  split at h
  · exact .inl ⟨‹_›, by simpa using h.symm⟩
  · rename_i p act hq
    unfold issueCommand at h
    split at h
    · rename_i i hi
      exact .inr (.inl ⟨p, act, i, hq, hi, h⟩)
    · rename_i e he
      exact .inr (.inr (.inl ⟨p, act, e, hq, he, by cases h; rfl⟩))
  · rename_i r act hq
    obtain ⟨v, hv, ht⟩ := hostRead_next h
    exact .inr (.inr (.inr (.inl ⟨r, act, v, hq, by cases r <;> exact hv, ht⟩)))
  · rename_i act hq
    exact .inr (.inr (.inr (.inr ⟨act, hq, by simpa using h.symm⟩)))

end Sys2Proof.Machine
end

