-- ==== Sys2Proof/Laws/PerInstr.lean ====
section
/-! SUPPORT. A family over the commands as syntax, one lemma per constructor: the word of every command is the one of
its row of spec/opcode_table.json (its match under its mask) and none of the reserved words of 30_encoding.md R55. -/

namespace Sys2Proof.Laws.TableWord

/-- Mask and match of the command's row of the opcode table. -/
def row : Instr → Byte × Byte
  | .add _    => (0xEF, 0x00)
  | .sub _    => (0xEF, 0x01)
  | .mul _    => (0xEF, 0x02)
  | .div _    => (0xEF, 0x03)
  | .cvt _    => (0xEF, 0x04)
  | .xtr _    => (0xEF, 0x05)
  | .grp      => (0xFF, 0x06)
  | .runAdd _ => (0xEF, 0x08)
  | .runSub _ => (0xEF, 0x09)
  | .runMul _ => (0xEF, 0x0A)
  | .runDiv _ => (0xEF, 0x0B)

/-- The encoded word matches the row and is well formed. -/
def Statement (i : Instr) : Prop :=
  encode i &&& (row i).1 = (row i).2 ∧ (CmdWord.ofByte (encode i)).wellFormed = true

theorem add (f : Prec) : Statement (.add f) := by cases f <;> exact ⟨by decide, by decide⟩
theorem sub (f : Prec) : Statement (.sub f) := by cases f <;> exact ⟨by decide, by decide⟩
theorem mul (f : Prec) : Statement (.mul f) := by cases f <;> exact ⟨by decide, by decide⟩
theorem div (f : Prec) : Statement (.div f) := by cases f <;> exact ⟨by decide, by decide⟩
theorem cvt (f : Prec) : Statement (.cvt f) := by cases f <;> exact ⟨by decide, by decide⟩
theorem xtr (f : Prec) : Statement (.xtr f) := by cases f <;> exact ⟨by decide, by decide⟩
theorem grp : Statement .grp := ⟨by decide, by decide⟩
theorem runAdd (f : Prec) : Statement (.runAdd f) := by cases f <;> exact ⟨by decide, by decide⟩
theorem runSub (f : Prec) : Statement (.runSub f) := by cases f <;> exact ⟨by decide, by decide⟩
theorem runMul (f : Prec) : Statement (.runMul f) := by cases f <;> exact ⟨by decide, by decide⟩
theorem runDiv (f : Prec) : Statement (.runDiv f) := by cases f <;> exact ⟨by decide, by decide⟩

end Sys2Proof.Laws.TableWord
end

