-- ==== Sys2Proof/Tests/Slice0.lean ====
section
/-! SUPPORT. Tests: command words written out bit by bit, ill-formed words, one step of each command on values of the
spec (95_test_vectors.md), and for each statement with hypotheses a witness that meets them. -/

namespace Sys2Proof.Tests

open Sys2Proof.Machine Sys2Proof.Safety

/-- Ports with the numeric operands given. -/
def numPorts (cmd : Byte) (xa xb : BitVec 32) : Ports := { Ports.idle with cmd := cmd, xa := xa, xb := xb }

/-- Ports with the binary64 operands given. -/
def widePorts (cmd : Byte) (a b : BitVec 64) : Ports := { Ports.idle with cmd := cmd, a64 := a, b64 := b }

/-- Ports of GRP with the input given. -/
def textPorts (s : String) : Ports := { Ports.idle with cmd := 0x06, sin := ascii s }

/-- The machine after reset with the given interactions to come. -/
def hosting (act : List HostAction) : State := { State.reset with host := act }

/-- The state after one step, if there is one. -/
def after (s : State) : Option State :=
  match step s with
  | .next t => some t
  | _       => none

/-- RES_R after one issue from reset. -/
def resultOf (p : Ports) : Option (BitVec 32) := (after (hosting [.issue p])).bind fun t => t.resp.resR

/-- STATUS after one issue from reset. -/
def statusOf (p : Ports) : Option Byte := (after (hosting [.issue p])).map State.status

/-! ### Decoding: RSV, FMT, OP of 30_encoding.md R49 to R51, bit by bit -/

theorem test_word_add : decode (0b000#3 ++ 0b0#1 ++ 0b0000#4) = .ok (.add .H) ∧
    decode (0b000#3 ++ 0b1#1 ++ 0b0000#4) = .ok (.add .S) := by decide
theorem test_word_sub : decode (0b000#3 ++ 0b0#1 ++ 0b0001#4) = .ok (.sub .H) ∧
    decode (0b000#3 ++ 0b1#1 ++ 0b0001#4) = .ok (.sub .S) := by decide
theorem test_word_mul : decode (0b000#3 ++ 0b0#1 ++ 0b0010#4) = .ok (.mul .H) ∧
    decode (0b000#3 ++ 0b1#1 ++ 0b0010#4) = .ok (.mul .S) := by decide
theorem test_word_div : decode (0b000#3 ++ 0b0#1 ++ 0b0011#4) = .ok (.div .H) ∧
    decode (0b000#3 ++ 0b1#1 ++ 0b0011#4) = .ok (.div .S) := by decide
theorem test_word_cvt : decode (0b000#3 ++ 0b0#1 ++ 0b0100#4) = .ok (.cvt .H) ∧
    decode (0b000#3 ++ 0b1#1 ++ 0b0100#4) = .ok (.cvt .S) := by decide
theorem test_word_xtr : decode (0b000#3 ++ 0b0#1 ++ 0b0101#4) = .ok (.xtr .H) ∧
    decode (0b000#3 ++ 0b1#1 ++ 0b0101#4) = .ok (.xtr .S) := by decide
theorem test_word_grp : decode (0b000#3 ++ 0b0#1 ++ 0b0110#4) = .ok .grp ∧
    decode (0b000#3 ++ 0b1#1 ++ 0b0110#4) = .error .grpWithFmt := by decide
theorem test_word_runAdd : decode (0b000#3 ++ 0b0#1 ++ 0b1000#4) = .ok (.runAdd .H) ∧
    decode (0b000#3 ++ 0b1#1 ++ 0b1000#4) = .ok (.runAdd .S) := by decide
theorem test_word_runSub : decode (0b000#3 ++ 0b0#1 ++ 0b1001#4) = .ok (.runSub .H) ∧
    decode (0b000#3 ++ 0b1#1 ++ 0b1001#4) = .ok (.runSub .S) := by decide
theorem test_word_runMul : decode (0b000#3 ++ 0b0#1 ++ 0b1010#4) = .ok (.runMul .H) ∧
    decode (0b000#3 ++ 0b1#1 ++ 0b1010#4) = .ok (.runMul .S) := by decide
theorem test_word_runDiv : decode (0b000#3 ++ 0b0#1 ++ 0b1011#4) = .ok (.runDiv .H) ∧
    decode (0b000#3 ++ 0b1#1 ++ 0b1011#4) = .ok (.runDiv .S) := by decide

/-- V-DEC-1 to V-DEC-15: the reserved words of the spec's table. -/
theorem test_reserved_words :
    [0x07, 0x0c, 0x0d, 0x0e, 0x0f, 0x16, 0x17, 0x1c, 0x1f, 0x20, 0x26, 0x30, 0x48, 0x80, 0xff].all
      (fun w : Byte => match decode w with
        | .ok _    => false
        | .error _ => true) = true := by decide

/-! ### WellFormed: one ill-formed word for each check (R55) -/

theorem test_illFormed_rsv : (CmdWord.mk 0b001 false 0x0).rsvOk = false ∧
    (CmdWord.mk 0b001 false 0x0).wellFormed = false := by decide
theorem test_illFormed_op : (CmdWord.mk 0 false 0x7).opOk = false ∧ (CmdWord.mk 0 false 0xc).opOk = false ∧
    (CmdWord.mk 0 false 0x7).wellFormed = false ∧ (CmdWord.mk 0 true 0xc).wellFormed = false := by decide
theorem test_illFormed_fmt : (CmdWord.mk 0 true 0x6).fmtOk = false ∧
    (CmdWord.mk 0 true 0x6).wellFormed = false := by decide
theorem test_wellFormed_edges : (CmdWord.mk 0 true 0xb).wellFormed = true ∧
    (CmdWord.mk 0 false 0x6).wellFormed = true := by decide

/-! ### One step of each command -/

/-- V-ADD-1, V-ADD-5: 1 + 2 = 3 in S, and H's overflow tie. -/
theorem test_add : resultOf (numPorts 0x10 0x3f800000 0x40000000) = some 0x40400000 ∧
    resultOf (numPorts 0x00 0x7bff 0x4c00) = some 0x7c00 := by decide +kernel
/-- V-ADD-10, V-ADD-11: signed zeros. -/
theorem test_add_zeros : resultOf (numPorts 0x00 0x8000 0x8000) = some 0x8000 ∧
    resultOf (numPorts 0x00 0x0000 0x8000) = some 0x0000 := by decide +kernel

/-- V-SUB-16, V-SUB-5: the order of the operands, and -0 - +0. -/
theorem test_sub : resultOf (numPorts 0x11 0x40000000 0x40400000) = some 0xbf800000 ∧
    resultOf (numPorts 0x01 0x8000 0x0000) = some 0x8000 := by decide +kernel
/-- V-SUB-10: under the reference policy the subtrahend's NaN keeps its sign. -/
theorem test_sub_nan : arith (referencePolicy false) .sub .S 0x3f800000 0xffc00000 = 0xffc00000 := by decide +kernel

/-- V-MUL-2, V-MUL-7: 2 * 3 = 6 in H, and a sign that survives underflow. -/
theorem test_mul : resultOf (numPorts 0x02 0x4000 0x4200) = some 0x4600 ∧
    resultOf (numPorts 0x02 0x8001 0x3800) = some 0x8000 := by decide +kernel
/-- V-MUL-19: an infinity times a signalling NaN, under the reference policy. -/
theorem test_mul_nan : arith (referencePolicy false) .mul .S 0x7f800000 0x7fa00000 = 0x7fe00000 := by decide +kernel

/-- V-DIV-3, V-DIV-1: the document's division by zero, and 1 / 3 in S. -/
theorem test_div : resultOf (numPorts 0x03 0x3c00 0x0000) = some 0x7c00 ∧
    resultOf (numPorts 0x13 0x3f800000 0x40400000) = some 0x3eaaaaab := by decide +kernel
/-- V-DIV-8: infinity over infinity gives the default NaN of the reference policy. -/
theorem test_div_invalid : arith (referencePolicy false) .div .S 0x7f800000 0x7f800000 = 0x7fc00000 := by decide +kernel

/-- V-CVT-9, V-CVT-3: H's overflow threshold, and 0.1 in S. -/
theorem test_cvt : resultOf (widePorts 0x04 0x40effe0000000000 0) = some 0x7c00 ∧
    resultOf (widePorts 0x14 0x3fb999999999999a 0) = some 0x3dcccccd := by decide +kernel
/-- V-CVT-19, V-CVT-20: two H ties, one down and one up. -/
theorem test_cvt_ties : resultOf (widePorts 0x04 0x3ff0020000000000 0) = some 0x3c00 ∧
    resultOf (widePorts 0x04 0x3ff0060000000000 0) = some 0x3c02 := by decide +kernel

/-- V-XTR-15: H ignores the upper half of XA. -/
theorem test_xtr_half :
    (after (hosting [.issue (numPorts 0x05 0xdead3c00 0)])).map (fun t => (t.status, t.resp.txt0, t.resp.txt1)) =
      some (0x11, some (ascii "0x3c00"), some (ascii "0011110000000000")) := by decide +kernel
/-- V-XTR-12: a NaN's stored bits, in S. -/
theorem test_xtr_single :
    (after (hosting [.issue (numPorts 0x15 0x7fc00001 0)])).map (fun t => (t.resp.txt0, t.resp.txt1)) =
      some (some (ascii "0x7fc00001"), some (ascii "01111111110000000000000000000001")) := by decide +kernel

/-- V-GRP-3, V-GRP-8, V-GRP-12, V-GRP-4: short groups, a hexadecimal input, the empty string. -/
theorem test_grp : groupString .unbounded (ascii "101") = some (ascii "101") ∧
    groupString .unbounded (ascii "01010") = some (ascii "0101 0") ∧
    groupString .unbounded (ascii "0xabcdef") = some (ascii "1010 1011 1100 1101 1110 1111") ∧
    groupString .unbounded [] = some [] := by decide +kernel
/-- V-GRP-16 to V-GRP-26: the refused strings; and a string longer than a bounded GRP_MAX_CHARS. -/
theorem test_grp_refused :
    ["0x", "0X1", "0xG", "0x7C00", "1012", "10 1", "0x0x1", "x", "0x 1", " 0101", "0b101"].all
      (fun s => (groupString .unbounded (ascii s)).isNone) = true ∧
    groupString (.bounded 0) (List.replicate 32 0x31) ≠ none ∧
    groupString (.bounded 0) (List.replicate 33 0x31) = none := by decide +kernel

/-- V-RUN-1: the document's scenario. -/
theorem test_runAdd :
    (after (hosting [.issue (widePorts 0x18 0x3ff0000000000000 0x4000000000000000)])).map
        (fun t => ((t.status, t.resp.resA), (t.resp.resB, t.resp.resR, t.resp.txt4))) =
      some ((0x21, some 0x3f800000), (some 0x40000000, some 0x40400000, some (ascii "0x40400000"))) := by decide +kernel
/-- V-RUN-3: the scenario that 90_conflicts.md C1 corrects. -/
theorem test_runAdd_half : resultOf (widePorts 0x08 0x40effc0000000000 0x3ff0000000000000) = some 0x7bff := by
  decide +kernel
/-- V-RUN-5. -/
theorem test_runSub : resultOf (widePorts 0x19 0x3fb999999999999a 0x3fc999999999999a) = some 0xbdcccccd := by
  decide +kernel
/-- V-RUN-6. -/
theorem test_runMul : resultOf (widePorts 0x0a 0x3fb999999999999a 0x3fb999999999999a) = some 0x211e := by
  decide +kernel
/-- V-RUN-2: RES_R and the hexadecimal string of the document's scenario. -/
theorem test_runDiv :
    (after (hosting [.issue (widePorts 0x0b 0x3ff0000000000000 0x0000000000000000)])).map
        (fun t => (t.status, t.resp.resR, t.resp.txt4)) =
      some (0x21, some 0x7c00, some (ascii "0x7c00")) := by decide +kernel
/-- V-RUN-2: the grouped string of the document's scenario. -/
theorem test_runDiv_grouped : groupRuns (binString .H 0x7c00) = ascii "0111 1100 0000 0000" := by decide +kernel

/-- A reserved word completes with UNSUP whatever the ports hold (V-DEC-6). -/
theorem test_unsupported : statusOf { textPorts "junk" with cmd := 0x16 } = some 0x03 := by decide
/-- A decimal literal that is no binary64 value (0.1 as in V-CVT-3, negated), and one port the command does not read. -/
theorem test_assemble_decimal : assemble Ports.idle (ascii "CVT.S -0.1") =
    some (widePorts 0x14 0xbfb999999999999a 0) := by decide +kernel
/-- What R56 does not write is no line: a missing operand, a decimal pattern of XA, an unknown mnemonic. -/
theorem test_assemble_refused :
    assemble Ports.idle (ascii "ADD.S 0x3f800000") = none ∧ assemble Ports.idle (ascii "XTR.H 1.0") = none ∧
      assemble Ports.idle (ascii "RUN.XOR.S 0x0, 0x0") = none := by decide +kernel

/-! ### Witnesses: concrete states and operands that meet the hypotheses of the statements -/

/-- A state of the invariant that is not the state after reset: after a reserved word. -/
def refusedState (act : List HostAction) : State := { State.reset with status := 0x03, host := act }

theorem refusedState_kind (act : List HostAction) : (refusedState act).kindField = Kind.none.code := by
  simp [State.kindField, refusedState, Kind.code]

theorem unitInv_refusedState (act : List HostAction) : UnitInv (refusedState act) where
  reserved := by simp [refusedState]
  notValid := by intro h; simp [State.valid, refusedState] at h
  error := fun _ => refusedState_kind act
  errCode := by simp [State.err, refusedState]
  written := ⟨.none, refusedState_kind act, fun r => by
    cases r with
    | txt k => match k with | 0 | 1 | 2 | 3 | 4 | 5 => rfl
    | _ => rfl⟩
  texts := by
    intro k t h
    match k with
    | 0 | 1 | 2 | 3 | 4 | 5 => cases h

/-- The quiet NaN of each format with sign 0 and no other payload bit. -/
def oneNaN (F : Format) : Pattern F := pack F false (BitVec.allOnes F.E) (BitVec.twoPow F.M (F.M - 1))

theorem isNaN_oneNaN (F : Format) : isNaN (oneNaN F) = true := by cases F <;> decide

/-- A policy whose three functions give that NaN. -/
def onePolicy : NaNPolicy := { convNaN := fun _ Fd _ => oneNaN Fd, defaultNaN := oneNaN, propNaN := fun F _ _ => oneNaN F }

theorem onePolicy_lawful : onePolicy.Lawful where
  convNaN_isNaN _ Fd _ _ := isNaN_oneNaN Fd
  defaultNaN_isNaN F := isNaN_oneNaN F
  propNaN_isNaN F _ _ _ := isNaN_oneNaN F

theorem witness_ValidCommandWordsAreTheseTwentyOne : 
    (0x07 : Byte) ∉ allCommands.map encode ∧ (0x16 : Byte) ∉ allCommands.map encode ∧
      (0x1c : Byte) ∉ allCommands.map encode := by decide
/-- Each condition of R55 at its edges. -/
theorem witness_ReservedWordsRaiseUnsupported :
    (hosting [.issue (numPorts 0x20 1 2)]).host = .issue (numPorts 0x20 1 2) :: [] ∧
    ([0x20, 0xe0, 0x07, 0x17, 0x0c, 0x1f, 0x16].all fun w : Byte =>
      w.extractLsb' 5 3 != 0 || w.extractLsb' 0 4 == 0x7 || decide (0xC ≤ (w.extractLsb' 0 4).toNat) ||
        (w.extractLsb' 0 4 == 0x6 && w.getLsbD 4)) = true ∧ RegName.resR ≠ .status := by decide
theorem witness_UnsupportedReadsNoOperand :
    (hosting [.issue (numPorts 0xff 1 2)]).host = .issue (numPorts 0xff 1 2) :: [] ∧
    decode (numPorts 0xff 1 2).cmd = .error .rsvNonzero := by decide
theorem witness_CliLineStandsForRun : (15 : Nat) ≠ 16 ∧ (17 : Nat) ≠ 32 ∧ (64 : Nat) ≠ 16 ∧ (64 : Nat) ≠ 32 := by decide
theorem witness_ResetLeavesRegistersUnwritten :
    RegName.txt 5 ≠ .status ∧ (hosting [.reset, .read .status]).host = .reset :: [.read .status] := by decide
theorem witness_StepRunsDecodedCommand :
    (hosting [.issue (numPorts 0x10 1 2)]).host = .issue (numPorts 0x10 1 2) :: [] ∧
    decode (numPorts 0x10 1 2).cmd = .ok (.add .S) := by decide
/-- Both clauses of the read: STATUS always reads, RES_R after reset does not. -/
theorem witness_HostReadDeliversOrFaults :
    (hosting [.read .status]).readReg .status = some (.byte 0x00) ∧ (hosting [.read .resR]).readReg .resR = none := by
  decide
theorem witness_IdleUnitKeepsRegisters : (hosting []).host = [] := rfl
/-- One issue for each branch: a reserved word, GRP on both outcomes, and the other kinds. -/
theorem witness_EveryIssueCompletesWithItsStatus :
    decode (numPorts 0x0c 0 0).cmd = .error .opReserved ∧ decode (textPorts "1").cmd = .ok .grp ∧
    (groupString Config.grpMaxChars (textPorts "1").sin).isSome = true ∧
    (groupString Config.grpMaxChars (textPorts "2").sin).isSome = false ∧
    decode (numPorts 0x05 0 0).cmd = .ok (.xtr .H) ∧ decode (numPorts 0x1b 0 0).cmd = .ok (.runDiv .S) := by
  refine ⟨by decide, by decide, ?_, ?_, by decide, by decide⟩
  · rw [groupString_plain (by decide) (by decide)]; rfl
  · rw [groupString, tooLong_of_le (by decide)]; decide
/-- A command without an error, and one with. -/
theorem witness_CommandFrame :
    (∃ t, exec (.cvt .H) (hosting []) = .next t ∧ t.err = 0 ∧ (kindOf (.cvt .H)).writes .resR = true ∧
      (kindOf (.cvt .H)).writes (.txt 0) = false) ∧
    ∃ t, exec .grp { hosting [] with ports := textPorts "2" } = .next t ∧ t.err ≠ 0 := by
  refine ⟨⟨_, rfl, by decide, by decide, by decide⟩, ?_⟩
  rcases execGrp_cases { hosting [] with ports := textPorts "2" } with ⟨out, h, -⟩ | ⟨-, h⟩
  · have : groupString Config.grpMaxChars (textPorts "2").sin = none := by
      rw [groupString, tooLong_of_le (by decide)]; decide
    rw [this] at h
    cases h
  · exact ⟨_, h, by decide⟩
/-- The same issue in two different states. -/
theorem witness_OutputsDependOnPortsOnly :
    let p := numPorts 0x10 0x3f800000 0x40000000
    (∃ t, step (hosting [.issue p]) = .next t) ∧ (∃ t, step (refusedState [.issue p, .reset]) = .next t) ∧
      hosting [.issue p] ≠ refusedState [.issue p, .reset] := ⟨⟨_, rfl⟩, ⟨_, rfl⟩, by decide⟩
/-- Two different port values that agree on the bits H reads. -/
theorem witness_UnreadPortBitsAreIgnored :
    let p := numPorts 0x00 0xdead3c00 0x4000
    let q := numPorts 0x00 0x3c00 0xffff4000
    p ≠ q ∧ p.xa.setWidth 16 = q.xa.setWidth 16 ∧ p.xb.setWidth 16 = q.xb.setWidth 16 ∧ p.a64 = q.a64 ∧
      p.b64 = q.b64 ∧ p.sin = q.sin ∧ ∃ t, exec (.add .H) { hosting [] with ports := p } = .next t := by
  refine ⟨by decide, by decide, by decide, rfl, rfl, rfl, ⟨_, rfl⟩⟩
theorem witness_EveryStepKeepsInvariant :
    ∃ s t, UnitInv s ∧ s.host ≠ [] ∧ step s = .next t :=
  ⟨refusedState [.issue (numPorts 0x10 1 2)], _, unitInv_refusedState _, by decide, rfl⟩
/-- A host that converts, reads the result, resets and reads STATUS. -/
theorem witness_DutifulHostIsNeverStopped :
    let act := [.issue (widePorts 0x04 0 0), .read .resR, .reset, .read .status]
    UnitInv (refusedState act) ∧ (refusedState act).kindField = Kind.none.code ∧ Dutiful .none (refusedState act).host := by
  refine ⟨unitInv_refusedState _, by decide, ?_⟩
  simp only [refusedState, Dutiful]
  decide
theorem witness_ReadOutsideKindFaults :
    UnitInv (refusedState [.read (.txt 0)]) ∧ (refusedState [.read (.txt 0)]).kindField = Kind.none.code ∧
      (refusedState [.read (.txt 0)]).host = .read (.txt 0) :: [] ∧ Kind.none.writes (.txt 0) = false :=
  ⟨unitInv_refusedState _, by decide, rfl, rfl⟩
/-- Both accepted forms, at the ends of the digit ranges and the empty string. -/
theorem witness_GroupingCommandCompletes :
    tooLong Config.grpMaxChars (ascii "0x09af").length = false ∧
    (∀ c ∈ ([] : Text), c = 0x30 ∨ c = 0x31) ∧ (∀ c ∈ ascii "01", c = 0x30 ∨ c = 0x31) ∧
    ascii "0x09af" = 0x30 :: 0x78 :: ascii "09af" ∧ ascii "09af" ≠ [] ∧ (∀ c ∈ ascii "09af", isHexChar c = true) :=
  ⟨tooLong_of_le (by decide), by decide, by decide, by decide, by decide, by decide⟩
/-- An accepted string, and refused ones just outside the digit ranges. -/
theorem witness_GroupingAcceptsExactlyTwoForms :
    (∃ h, ascii "0x09af" = 0x30 :: 0x78 :: h ∧ h ≠ [] ∧
      (∀ c ∈ h, (0x30 ≤ c.toNat ∧ c.toNat ≤ 0x39) ∨ (0x61 ≤ c.toNat ∧ c.toNat ≤ 0x66)) ∧
      ∀ above, Config.grpMaxChars = .bounded above → (ascii "0x09af").length ≤ 32 + above) ∧
    ([0x2f, 0x3a, 0x60, 0x67].all fun c => (groupSource [0x30, 0x78, c]).isNone) = true ∧
    groupSource [0x30, 0x78] = none ∧ groupSource [0x32] = none := by
  refine ⟨⟨ascii "09af", by decide, by decide, by decide, fun above _ => ?_⟩, by decide, by decide, by decide⟩
  have : (ascii "0x09af").length = 6 := by decide
  omega
theorem witness_RunIsTotal :
    (hosting [.issue (widePorts 0x0b 1 2)]).host = .issue (widePorts 0x0b 1 2) :: [] ∧
    (widePorts 0x0b 1 2).cmd = encode (Instr.run .div .H) ∧ (0x18 : Byte) = encode (Instr.run .add .S) := by decide
theorem witness_HalfResultsAreZeroExtended :
    ∃ t v, exec (.runAdd .H) (hosting []) = .next t ∧ t.resp.resR = some v ∧ (t.resp.resA).isSome = true ∧
      (t.resp.resB).isSome = true := ⟨_, _, rfl, rfl, rfl, rfl⟩
/-- A tie, an integer and zero. -/
theorem witness_RneIntIsNearestTiesToEven :
    (0 : ℚ) ≤ 0 ∧ (0 : ℚ) ≤ 5 / 2 ∧ |(rneInt (5 / 2) : ℚ) - 5 / 2| = 1 / 2 ∧ |(rneInt (7 / 2) : ℚ) - 7 / 2| = 1 / 2 := by
  decide +kernel
/-- 1 + 2^-11 in H: a tie between 0x3c00 and 0x3c01. -/
theorem witness_RoundingGivesNearestTiesToEven :
    let r := roundToFormat .H false (2049 / 2048)
    (0 : ℚ) < 2049 / 2048 ∧ isInf r = false ∧ isFinite (F := .H) 0x3c01 = true ∧ val (F := .H) 0x3c01 ≠ val r ∧
      |val r - signValue false * (2049 / 2048)| = |val (F := .H) 0x3c01 - signValue false * (2049 / 2048)| := by
  decide +kernel
/-- H at both thresholds, and the least and the greatest finite magnitude. -/
theorem witness_RoundingThresholds :
    (0 : ℚ) < 65520 ∧ isInf (roundToFormat .H true 65520) = true ∧ isInf (roundToFormat .H true 65519) = false ∧
    (0 : ℚ) < pow2 (-25) ∧ isZero (roundToFormat .H true (pow2 (-25))) = true ∧
    isZero (roundToFormat .H true (pow2 (-25) + pow2 (-40))) = false ∧
    (isFinite (F := .H) 0x0001 = true ∧ (0x0001 : Pattern .H) ≠ zero .H (sign (F := .H) 0x0001)) ∧
    isFinite (F := .H) 0xfbff = true ∧ (0xfbff : Pattern .H) ≠ zero .H (sign (F := .H) 0xfbff) := by decide +kernel
theorem witness_FormatValuesRoundToThemselves :
    (isFinite (F := .H) 0x83ff = true ∧ isZero (F := .H) 0x83ff = false) ∧
    isFinite (F := .S) 0x7f7fffff = true ∧ isZero (F := .S) 0x7f7fffff = false := by decide
theorem witness_UnitPolicyGivesNaNs : isNaN (F := .H) 0x7c01 = true ∧ isNaN (F := .S) 0xffffffff = true := by decide
/-- A NaN and a number, and bit places below and at the quiet bit. -/
theorem witness_ReferencePolicyIsLawful :
    isNaN (F := .D) 0xfff4000000000000 = true ∧ isNaN (F := .D) 0x7ff0000000000000 = false ∧ 9 < Format.H.M ∧
    quiet (F := .H) 0x7c01 = 0x7e01 ∧ (referencePolicy false).convNaN .D .S 0xfff4000000000001 = 0xffe00000 ∧
    (referencePolicy false).convNaN .H .D 0x7d55 = 0x7ffd540000000000 := by decide
theorem witness_NaNOperandsGiveNaN : onePolicy.Lawful ∧ isNaN (F := .H) 0x7c01 = true := ⟨onePolicy_lawful, by decide⟩
theorem witness_InvalidOperationsGiveDefaultNaN : onePolicy.Lawful ∧ isZero (F := .H) 0x8000 = true :=
  ⟨onePolicy_lawful, by decide⟩
/-- A subnormal, the largest value, a zero, an infinity and a NaN. -/
theorem witness_WidenIsExact :
    isFinite (F := .H) 0x0001 = true ∧ isFinite (F := .S) 0xff7fffff = true ∧ isZero (F := .S) 0x80000000 = true ∧
    isInf (F := .H) 0xfc00 = true ∧ isNaN (F := .H) 0x7c01 = true := by decide
/-- Each clause of R60's table, at its boundary. -/
theorem witness_ConversionCornerCases :
    isZero (F := .D) 0x8000000000000000 = true ∧ isInf (F := .D) 0x7ff0000000000000 = true ∧
    isNaN (F := .D) 0x7ff0000000000001 = true ∧
    (isFinite (F := .D) 0x40effe0000000000 = true ∧
      (2 - pow2 (-precision .H)) * pow2 (emax .H) ≤ |val (F := .D) 0x40effe0000000000|) ∧
    (isFinite (F := .D) 0x3e60000000000000 = true ∧
      |val (F := .D) 0x3e60000000000000| ≤ pow2 (emin .H - Format.H.M) / 2) ∧
    isSub (F := .D) 0x000fffffffffffff = true ∧
    (isFinite (F := .D) 0x40efffffffffffff = true ∧ isZero (F := .D) 0x40efffffffffffff = false) ∧
    (isFinite (F := .D) 0x40effdffffffffff = true ∧
      |val (F := .D) 0x40effdffffffffff| < (2 - pow2 (-precision .H)) * pow2 (emax .H)) ∧
    (isFinite (F := .D) 0x3e60000000000001 = true ∧
      pow2 (emin .H - Format.H.M) / 2 < |val (F := .D) 0x3e60000000000001|) := by decide +kernel
/-- A tie of H between the largest subnormal and the smallest normal number: 1023.5 units of 2^-24. -/
theorem witness_ConversionCornerCases_tie :
    let x : Pattern .D := 0x3f0ffc0000000000
    let r := convertD onePolicy .H x
    isFinite x = true ∧ pow2 (emin .H - Format.H.M) / 2 < |val x| ∧
      |val x| < (2 - pow2 (-precision .H)) * pow2 (emax .H) ∧ r = 0x0400 ∧ isFinite (F := .H) 0x03ff = true ∧
      val (F := .H) 0x03ff ≠ val r ∧ |val r - val x| = |val (F := .H) 0x03ff - val x| := by decide +kernel
theorem witness_ConversionRoundTrips :
    (isFinite (F := .D) 0x3e70000000000000 = true ∧ isFinite (F := .H) 0x0001 = true ∧
      val (F := .H) 0x0001 = val (F := .D) 0x3e70000000000000) ∧ isNaN (F := .S) 0x7f800000 = false := by decide +kernel
theorem witness_ConversionIsIdempotent :
    isNaN (F := .D) 0x40f0000000000000 = false ∧ onePolicy.Lawful ∧ isNaN (F := .D) 0xfff0000000000001 = true :=
  ⟨by decide, onePolicy_lawful, by decide⟩
/-- A finite nonzero operand, and a sum at H's overflow threshold. -/
theorem witness_AdditionCornerCases :
    (isFinite (F := .H) 0x0001 = true ∧ isZero (F := .H) 0x0001 = false) ∧
    (isFinite (F := .H) 0x7bff = true ∧ isFinite (F := .H) 0x4c00 = true ∧
      (2 - pow2 (-precision .H)) * pow2 (emax .H) ≤ |val (F := .H) 0x7bff + val (F := .H) 0x4c00|) ∧
    (isFinite (F := .H) 0x0400 = true ∧ isFinite (F := .H) 0x8001 = true ∧
      val (F := .H) 0x0400 + val (F := .H) 0x8001 ≠ 0 ∧
      |val (F := .H) 0x0400 + val (F := .H) 0x8001| < pow2 (emin .H)) := by decide +kernel
/-- V-SUB-15: a difference at H's overflow threshold. -/
theorem witness_SubtractionCornerCases :
    isFinite (F := .H) 0xfbff = true ∧ isFinite (F := .H) 0x4c00 = true ∧
      (2 - pow2 (-precision .H)) * pow2 (emax .H) ≤ |val (F := .H) 0xfbff - val (F := .H) 0x4c00| := by decide +kernel
/-- V-MUL-13, V-MUL-14, V-MUL-3, V-MUL-5. -/
theorem witness_MultiplicationCornerCases :
    (isInf (F := .H) 0xfc00 = true ∧ isNaN (F := .H) 0xbc00 = false ∧ isZero (F := .H) 0xbc00 = false) ∧
    (isZero (F := .H) 0x8000 = true ∧ isFinite (F := .H) 0x3c00 = true) ∧
    (isFinite (F := .H) 0x7bff = true ∧ isFinite (F := .H) 0x4000 = true ∧
      (2 - pow2 (-precision .H)) * pow2 (emax .H) ≤ |val (F := .H) 0x7bff * val (F := .H) 0x4000|) ∧
    (isFinite (F := .H) 0x0001 = true ∧ isFinite (F := .H) 0x3800 = true ∧
      |val (F := .H) 0x0001 * val (F := .H) 0x3800| ≤ pow2 (emin .H - Format.H.M) / 2) := by decide +kernel
/-- V-DIV-4, V-DIV-9, V-DIV-11, V-DIV-13, V-DIV-14, V-DIV-15. -/
theorem witness_DivisionCornerCases :
    (isFinite (F := .H) 0xbc00 = true ∧ isZero (F := .H) 0xbc00 = false ∧ isZero (F := .H) 0x0000 = true) ∧
    (isInf (F := .H) 0x7c00 = true ∧ isFinite (F := .H) 0x0000 = true) ∧
    (isFinite (F := .H) 0x7bff = true ∧ isFinite (F := .H) 0x1400 = true ∧ isZero (F := .H) 0x1400 = false ∧
      (2 - pow2 (-precision .H)) * pow2 (emax .H) ≤ |val (F := .H) 0x7bff / val (F := .H) 0x1400|) ∧
    (isFinite (F := .H) 0x0001 = true ∧ isFinite (F := .H) 0x4000 = true ∧ isZero (F := .H) 0x4000 = false ∧
      |val (F := .H) 0x0001 / val (F := .H) 0x4000| ≤ pow2 (emin .H - Format.H.M) / 2) := by decide +kernel
/-- The least S operands, whose product has the least magnitude of R72. -/
theorem witness_IntermediateNeverOverflowsOrUnderflows :
    isFinite (F := .S) 0x00000001 = true ∧ isFinite (F := .S) 0x80000001 = true ∧
      isZero (F := .S) 0x80000001 = false ∧
      |val (F := .S) 0x00000001 * val (F := .S) 0x80000001| = pow2 (-298) := by decide +kernel
theorem witness_IntermediateIsExactWhereStated :
    isFinite (F := .H) 0x7bff = true ∧ isFinite (F := .H) 0x8001 = true ∧ isFinite (F := .S) 0x7f7fffff = true := by decide
/-- An exact result that binary64 cannot hold (V-ADD-26), and the other three results not zero. -/
theorem witness_DoubleRoundingIsInnocuous :
    isFinite (F := .S) 0x7f000000 = true ∧ isFinite (F := .S) 0x00000001 = true ∧
      val (F := .S) 0x7f000000 + val (F := .S) 0x00000001 ≠ 0 ∧
      val (F := .S) 0x7f000000 - val (F := .S) 0x00000001 ≠ 0 ∧
      val (F := .S) 0x7f000000 * val (F := .S) 0x00000001 ≠ 0 ∧
      val (F := .S) 0x7f000000 / val (F := .S) 0x00000001 ≠ 0 := by decide +kernel
theorem witness_AdditionAndMultiplicationCommute : isNaN (F := .H) 0x8000 = false ∧ isNaN (F := .H) 0x7c00 = false := by
  decide
theorem witness_ExtractedStringsAreNumerals : 3 < Format.H.w / 4 ∧ 7 < Format.S.w / 4 ∧ (3 : Nat) < 4 := by decide
/-- Five characters: a full group and a short one. -/
theorem witness_GroupedOutputLength :
    ascii "01010" ≠ [] ∧ (runsOf4 (ascii "01010"))[0]? = some (ascii "0101") ∧
      (runsOf4 (ascii "01010"))[1]? = some (ascii "0") ∧
      groupString .unbounded (0x30 :: 0x78 :: ascii "00") = some (ascii "0000 0000") := by decide
theorem witness_GroupingOnlyInsertsSpaces :
    groupString .unbounded (ascii "01010") = some (ascii "0101 0") ∧ (ascii "0101 0")[4]? = some spaceChar := by decide
theorem witness_HexExpansionIsItsNumeral :
    ascii "09af" ≠ [] ∧ ∀ c ∈ ascii "09af", isHexChar c = true := by decide
theorem witness_RunGroupedStrings :
    ∃ t g, exec (Instr.run .add .S) (hosting []) = .next t ∧ t.resp.txt1 = some g ∧ (t.resp.txt3).isSome = true ∧
      (t.resp.txt5).isSome = true := by
  refine ⟨runPipeline .add .S (hosting []), ?_⟩
  simp only [runPipeline, complete_resp, runOutputs_eq]
  exact ⟨_, rfl, rfl, rfl, rfl⟩
theorem witness_CharactersHaveTheirCodes : isHexChar 0x30 = true ∧ isHexChar 0x39 = true ∧ isHexChar 0x61 = true ∧
    isHexChar 0x66 = true := by decide
theorem witness_StatusFieldsAndCodes : RegName.txt 1 ≠ .status ∧ RegName.resB ≠ .status := by decide
theorem witness_RunMatchesSingleCommands :
    (∃ t, exec (Instr.run .mul .H) (hosting []) = .next t) ∧
    (∃ u : State, u.ports.a64 = (hosting []).ports.a64) ∧ (∃ u : State, u.ports.xa = 5 ∧ u.ports.xb = 7) ∧
    ∃ w : State, w.ports.sin = ascii "01" :=
  ⟨⟨_, rfl⟩, ⟨hosting [], rfl⟩, ⟨{ hosting [] with ports := numPorts 0 5 7 }, rfl, rfl⟩,
    ⟨{ hosting [] with ports := textPorts "01" }, rfl⟩⟩

end Sys2Proof.Tests
end

/-! SUPPORT. The fields of a pattern as numbers, and the statements about patterns, classes and constructors
(00_scope.md R12, R13, R15). -/

namespace Sys2Proof.Machine

theorem frac_toNat {F : Format} (x : Pattern F) : (frac x).toNat = x.toNat % 2 ^ F.M := by
  simp [frac]

theorem expf_toNat {F : Format} (x : Pattern F) : (expf x).toNat = x.toNat / 2 ^ F.M % 2 ^ F.E := by
  simp [expf, Nat.shiftRight_eq_div_pow]

/-- The sign bit is what lies above the exponent and fraction fields. -/
theorem sign_toNat {F : Format} (x : Pattern F) : (sign x).toNat = x.toNat / 2 ^ F.M / 2 ^ F.E := by
  have hw := width_eq F
  have hx : x.toNat < 2 ^ (F.M + F.E) * 2 := by rw [← pow_succ, add_assoc, ← hw]; exact x.isLt
  have htop : x.toNat / 2 ^ (F.M + F.E) < 2 := Nat.div_lt_of_lt_mul hx
  rw [sign, show F.w - 1 = F.M + F.E by omega, BitVec.getLsbD, Nat.toNat_testBit, Nat.mod_eq_of_lt htop, pow_add,
    Nat.div_div_eq_div_mul]

/-- The three fields, weighted by their places, make up the pattern's number (R12). -/
theorem toNat_eq_fields {F : Format} (x : Pattern F) :
    x.toNat = (sign x).toNat * 2 ^ (F.w - 1) + (expf x).toNat * 2 ^ F.M + (frac x).toNat := by
  have hw : F.w - 1 = F.E + F.M := by have := width_eq F; omega
  rw [sign_toNat, expf_toNat, frac_toNat, hw, pow_add, ← mul_assoc, ← add_mul, Nat.div_add_mod', Nat.div_add_mod']

/-- Settles O27: each field is a quotient and remainder of the pattern's number. -/
theorem patternIsSignExponentFraction : Obligations.PatternIsSignExponentFraction := by
  unfold Obligations.PatternIsSignExponentFraction
  exact fun _ x => toNat_eq_fields x

/-- Settles O28: the exponent field is 0, all ones or between, and at the two ends the fraction decides. -/
theorem everyPatternHasExactlyOneClass : Obligations.EveryPatternHasExactlyOneClass := by
  unfold Obligations.EveryPatternHasExactlyOneClass
  intro F x
  have hF := two_le_pow_exponent F
  have hlt := expf_lt x
  simp only [isZero, isSub, isNormal, isInf, isNaN, bne]
  obtain he | he | ⟨h0, h1⟩ : (expf x).toNat = 0 ∨ (expf x).toNat = 2 ^ F.E - 1 ∨
    0 < (expf x).toNat ∧ (expf x).toNat < 2 ^ F.E - 1 := by omega
  · have hne : (0 == 2 ^ F.E - 1) = false := beq_eq_false_iff_ne.2 (by omega)
    rw [he, hne]
    cases (frac x).toNat == 0 <;> rfl
  · have hne : (2 ^ F.E - 1 == 0) = false := beq_eq_false_iff_ne.2 (by omega)
    rw [he, hne]
    cases (frac x).toNat == 0 <;> simp
  · simp [h0, h1, h0.ne', h1.ne]

/-- Neg flips the sign bit alone (R15). -/
theorem neg_eq_xor {F : Format} (x : Pattern F) : neg x = x ^^^ BitVec.twoPow F.w (F.w - 1) := by
  have hw := width_eq F
  apply BitVec.eq_of_getLsbD_eq
  intro i hi
  conv_rhs => rw [← pack_fields x]
  rw [neg, BitVec.getLsbD_xor, getLsbD_pack, getLsbD_pack, BitVec.getLsbD_twoPow]
  by_cases hs : i = F.M + F.E
  · have h1 : F.w - 1 = i := by omega
    have h2 : F.M + F.E < F.w := by omega
    simp [hs, h1, h2]
  · have h1 : F.w - 1 ≠ i := by omega
    simp [hs, h1]

/-- Settles O29: the field lemmas of the constructors, and the listed constants by evaluation. -/
theorem constructorPatterns : Obligations.ConstructorPatterns := by
  unfold Obligations.ConstructorPatterns
  refine ⟨fun F s => ?_, fun F s => ?_, fun _ x => neg_eq_xor x, by decide⟩
  · simp
  · simp

end Sys2Proof.Machine

/-! SUPPORT. RNEInt and RoundToFormat as nearest with ties to even, and the thresholds where RoundToFormat leaves the
finite nonzero patterns (00_scope.md R16 to R18). -/

namespace Sys2Proof.Machine

/-- RNEInt is a nearest integer, and even where another integer is equally near (R16). -/
theorem abs_rneInt_sub_le {q : ℚ} (hq : 0 ≤ q) :
    |(rneInt q : ℚ) - q| ≤ 1 / 2 ∧ (|(rneInt q : ℚ) - q| = 1 / 2 → rneInt q % 2 = 0) := by
  obtain ⟨f, hle, hlt, ⟨hr, hn⟩ | ⟨hr, hn⟩ | ⟨hr, hev, hn⟩ | ⟨hr, hodd, hn⟩⟩ := rneInt_cases hq
  · rw [hn, abs_of_nonpos (by linarith)]
    exact ⟨by linarith, fun h => by linarith⟩
  · rw [hn, Nat.cast_succ, abs_of_pos (by linarith)]
    exact ⟨by linarith, fun h => by linarith⟩
  · rw [hn, abs_of_nonpos (by linarith)]
    exact ⟨by linarith, fun _ => hev⟩
  · rw [hn, Nat.cast_succ, abs_of_pos (by linarith)]
    exact ⟨by linarith, fun _ => by omega⟩

/-- Settles O30, by the four ways RNEInt can go. -/
theorem rneIntIsNearestTiesToEven : Obligations.RneIntIsNearestTiesToEven := by
  unfold Obligations.RneIntIsNearestTiesToEven
  exact fun _ hq => abs_rneInt_sub_le hq

/-- Another natural number is at least as far from q as RNEInt(q), and no nearer unless RNEInt(q) is even. -/
theorem abs_rneInt_sub_le_of_ne {q : ℚ} (hq : 0 ≤ q) {k : ℕ} (hk : k ≠ rneInt q) :
    |(rneInt q : ℚ) - q| ≤ |k - q| ∧ (|(rneInt q : ℚ) - q| = |k - q| → rneInt q % 2 = 0) := by
  obtain ⟨hhalf, heven⟩ := abs_rneInt_sub_le hq
  have hgap : (1 : ℚ) ≤ |(k : ℚ) - rneInt q| := by
    exact_mod_cast Int.one_le_abs (sub_ne_zero.2 (Nat.cast_injective.ne hk))
  have htri := abs_sub_le (k : ℚ) q (rneInt q)
  rw [abs_sub_comm q] at htri
  exact ⟨by linarith, fun h => heven (by linarith)⟩

/-- Between m and z lies a point of the grid of m, when |z| is a magnitude of the format. -/
theorem grid_between {F : Format} {m z : ℚ} (hm : 0 < m) (hz : Representable F |z|) :
    ∃ k : ℕ, (z ≤ k * ulp F m ∧ k * ulp F m ≤ m) ∨ (m ≤ k * ulp F m ∧ k * ulp F m ≤ z) := by
  obtain hneg | hpos := lt_or_ge z 0
  · exact ⟨0, .inl ⟨by simpa using hneg.le, by simpa using hm.le⟩⟩
  · rw [abs_of_nonneg hpos] at hz
    obtain h | h := le_total z m
    · obtain ⟨k, hk⟩ := grid_below hm hz h
      exact ⟨k, .inl hk⟩
    · obtain ⟨k, hk⟩ := grid_above hm hz h
      exact ⟨k, .inr hk⟩

/-- A point of the grid of m is at least as far from m as the rounded magnitude, which is that point or, on a tie, has
an even significand. -/
theorem rounded_nearest_on_grid {F : Format} {m : ℚ} (hm : 0 < m) (k : ℕ) :
    |rounded F m - m| ≤ |k * ulp F m - m| ∧
      (|rounded F m - m| = |k * ulp F m - m| → k * ulp F m = rounded F m ∨ significand F m % 2 = 0) := by
  have hu := ulp_pos F m
  have hscale : ∀ n : ℕ, |n * ulp F m - m| = |n - m / ulp F m| * ulp F m := fun n => by
    rw [← abs_of_pos hu, ← abs_mul, abs_of_pos hu, sub_mul, div_mul_cancel₀ _ hu.ne']
  by_cases hk : k = significand F m
  · subst hk; exact ⟨le_rfl, fun _ => .inl rfl⟩
  · rw [significand, scale_eq] at hk
    obtain ⟨hnear, htie⟩ := abs_rneInt_sub_le_of_ne (div_nonneg hm.le hu.le) hk
    rw [rounded, significand, scale_eq, hscale, hscale]
    exact ⟨mul_le_mul_of_nonneg_right hnear hu.le, fun h => .inr (htie (mul_right_cancel₀ hu.ne' h))⟩

/-- The rounded magnitude is nearest to m among the values of the format, ties going to an even significand (R17). -/
theorem rounded_nearest {F : Format} {m z : ℚ} (hm : 0 < m) (hz : Representable F |z|) :
    |rounded F m - m| ≤ |z - m| ∧
      (z ≠ rounded F m → |rounded F m - m| = |z - m| → significand F m % 2 = 0) := by
  obtain ⟨k, hk⟩ := grid_between hm hz
  obtain ⟨hnear, htie⟩ := rounded_nearest_on_grid (F := F) hm k
  have hz : |z - m| = |z - k * ulp F m| + |k * ulp F m - m| := by
    obtain ⟨h1, h2⟩ | ⟨h1, h2⟩ := hk
    · rw [abs_of_nonpos (by linarith), abs_of_nonpos (by linarith), abs_of_nonpos (by linarith)]; ring
    · rw [abs_of_nonneg (by linarith), abs_of_nonneg (by linarith), abs_of_nonneg (by linarith)]; ring
  have hpos := abs_nonneg (z - k * ulp F m)
  refine ⟨by linarith, fun hne heq => ?_⟩
  have hzk : z = k * ulp F m := sub_eq_zero.1 (abs_eq_zero.1 (by linarith))
  exact (htie (by rw [heq, hzk])).resolve_left (hzk ▸ hne)

/-- A sign on both sides of a difference leaves its magnitude. -/
theorem abs_sub_signValue_mul (s : Bool) (a b : ℚ) : |a - signValue s * b| = |signValue s * a - b| := by
  cases s
  · simp [signValue]
  · simp only [signValue, if_true]
    rw [← abs_neg]; congr 1; ring

/-- Settles O31: the sign is divided out, and the rounded magnitude is nearest on the grid. -/
theorem roundingGivesNearestTiesToEven : Obligations.RoundingGivesNearestTiesToEven := by
  unfold Obligations.RoundingGivesNearestTiesToEven
  intro F s m hm r v hinf
  obtain ⟨-, hr⟩ | ⟨-, hfin, hsign, hval, -, hfrac, -⟩ := roundToFormat_cases F s hm
  · rw [show r = inf F s from hr, isInf_inf] at hinf
    cases hinf
  · refine ⟨hfin, hsign, fun y hy => ?_⟩
    have hval : signValue s * val r = rounded F m := by
      rw [show val r = _ from hval, ← mul_assoc]; cases s <;> simp [signValue]
    have hz : Representable F |signValue s * val y| := by
      rw [abs_signValue_mul]; exact (finite_val hy).1
    obtain ⟨hnear, htie⟩ := rounded_nearest hm hz
    simp only [v, abs_sub_signValue_mul, hval]
    refine ⟨hnear, fun hne heq => hfrac (htie (fun h => hne ?_) heq)⟩
    have hs : signValue s ≠ 0 := by cases s <;> simp [signValue]
    exact mul_left_cancel₀ hs (h.trans hval.symm)

/-- Settles O33: a magnitude of the format is its own rounding, and sign and value determine a finite pattern. -/
theorem formatValuesRoundToThemselves : Obligations.FormatValuesRoundToThemselves := by
  unfold Obligations.FormatValuesRoundToThemselves
  intro F x hx hz
  obtain ⟨hrep, hval, hlt, -⟩ := finite_val hx
  have hpos := val_abs_pos hx hz
  have hself := rounded_eq_self hpos hrep
  obtain ⟨hge, -⟩ | ⟨-, hfin, hsign, hval', -⟩ := roundToFormat_cases F (sign x) hpos
  · exact absurd hlt (not_lt.2 (hself ▸ hge))
  · exact finite_ext hfin hx hsign (by rw [hval', hself, ← hval])

/-- RNEInt reaches an even n from n - 1/2 on: the tie goes up to n (R16). -/
theorem even_le_rneInt_iff {q : ℚ} (hq : 0 ≤ q) {n : ℕ} (hn : n % 2 = 0) : n ≤ rneInt q ↔ (n : ℚ) - 1 / 2 ≤ q := by
  obtain ⟨hhalf, htie⟩ := abs_rneInt_sub_le hq
  obtain ⟨hlo, hhi⟩ := abs_le.1 hhalf
  constructor
  · intro h
    have h' : (n : ℚ) ≤ rneInt q := by exact_mod_cast h
    linarith
  · intro h
    by_contra hc
    have h' : (rneInt q : ℚ) + 1 ≤ n := by exact_mod_cast not_le.1 hc
    have heq : (rneInt q : ℚ) + 1 = n := by linarith
    have heven := htie (by rw [abs_of_nonpos] <;> linarith)
    have : rneInt q + 1 = n := by exact_mod_cast heq
    omega

/-- RNEInt stays at or below an even n up to n + 1/2: the tie goes down to n (R16). -/
theorem rneInt_le_even_iff {q : ℚ} (hq : 0 ≤ q) {n : ℕ} (hn : n % 2 = 0) : rneInt q ≤ n ↔ q ≤ n + 1 / 2 := by
  obtain ⟨hhalf, htie⟩ := abs_rneInt_sub_le hq
  obtain ⟨hlo, hhi⟩ := abs_le.1 hhalf
  constructor
  · intro h
    have h' : (rneInt q : ℚ) ≤ n := by exact_mod_cast h
    linarith
  · intro h
    by_contra hc
    have h' : (n : ℚ) + 1 ≤ rneInt q := by exact_mod_cast not_le.1 hc
    have heq : (n : ℚ) + 1 = rneInt q := by linarith
    have heven := htie (by rw [abs_of_nonneg] <;> linarith)
    have : n + 1 = rneInt q := by exact_mod_cast heq
    omega

/-- Below 2^(emin+1) the grid is that of the subnormals, with spacing Fmin (R17). -/
theorem ulp_of_lt {F : Format} {m : ℚ} (hm : 0 < m) (h : m < pow2 (emin F + 1)) : ulp F m = pow2 (emin F - F.M) := by
  have hlog : floorLog2 m < emin F + 1 := by
    by_contra hc
    exact absurd h (not_lt.2 ((le_floorLog2_iff hm).1 (not_lt.1 hc)))
  rw [ulp, gridExp_eq_max, max_eq_right (by omega)]

/-- In the topmost binade of the format the grid has spacing 2^(emax - M) (R17). -/
theorem ulp_of_top {F : Format} {m : ℚ} (hlo : pow2 (emax F) ≤ m) (hhi : m < pow2 (emax F + 1)) :
    ulp F m = pow2 (emax F - F.M) := by
  rw [ulp, gridExp_eq_max, floorLog2_unique hlo hhi, max_eq_left (emin_le_emax F)]

/-- R18's overflow threshold is half a spacing of the topmost binade below 2^(emax+1). -/
theorem threshold_eq (F : Format) :
    (2 - pow2 (-precision F)) * pow2 (emax F) = pow2 (emax F + 1) - pow2 (emax F - F.M) / 2 := by
  have hdown : pow2 (-precision F) * pow2 (emax F) = pow2 (emax F - F.M) * pow2 (-1) := by
    rw [← pow2_add, ← pow2_add]; congr 1; unfold precision; push_cast; ring
  rw [sub_mul, hdown, pow2_add, show pow2 1 = 2 from rfl, show pow2 (-1) = 1 / 2 by norm_num [pow2_eq_zpow]]
  ring

/-- Fmax is one spacing of the topmost binade below 2^(emax+1). -/
theorem fmax_eq (F : Format) :
    (2 - pow2 (-F.M)) * pow2 (emax F) = pow2 (emax F + 1) - pow2 (emax F - F.M) := by
  have hdown : pow2 (-F.M) * pow2 (emax F) = pow2 (emax F - F.M) := by
    rw [← pow2_add]; congr 1; ring
  rw [sub_mul, hdown, pow2_add, show pow2 1 = 2 from rfl]
  ring

/-- 2^(emax+1) as a point of the topmost binade's grid. -/
theorem pow2_top_eq (F : Format) : pow2 (emax F + 1) = (2 ^ (F.M + 1) : ℕ) * pow2 (emax F - F.M) := by
  rw [← pow2_natCast, ← pow2_add]; congr 1; push_cast; ring

/-- The rounded magnitude passes the range of the format exactly from R18's threshold on. -/
theorem pow2_le_rounded_iff {F : Format} {m : ℚ} (hm : 0 < m) :
    pow2 (emax F + 1) ≤ rounded F m ↔ (2 - pow2 (-precision F)) * pow2 (emax F) ≤ m := by
  have hp := pow2_pos (emax F - F.M)
  have hmin := emin_le_emax F
  have hstep : pow2 (emax F + 1) = 2 * pow2 (emax F) := by rw [pow2_add]; exact mul_comm ..
  rw [threshold_eq]
  obtain hhi | hhi := le_or_gt (pow2 (emax F + 1)) m
  · exact iff_of_true (le_rounded hm (representable_pow2 F (by omega)) hhi) (by linarith)
  obtain hlo | hlo := lt_or_ge m (pow2 (emax F))
  · have hle := rounded_le hm (representable_pow2 F hmin) hlo.le
    have hsmall : pow2 (emax F - F.M) ≤ pow2 (emax F) := pow2_le_iff.2 (by omega)
    have hpos := pow2_pos (emax F)
    exact iff_of_false (by linarith) (by linarith)
  · have hu := ulp_of_top hlo hhi
    have heven : 2 ^ (F.M + 1) % 2 = 0 := by omega
    rw [rounded, significand, scale_eq, hu, pow2_top_eq, mul_le_mul_iff_left₀ hp, Nat.cast_le,
      even_le_rneInt_iff (by positivity) heven, le_div_iff₀ hp, sub_mul]
    ring_nf

/-- The rounded magnitude is zero exactly up to half of Fmin (R18). -/
theorem rounded_eq_zero_iff {F : Format} {m : ℚ} (hm : 0 < m) :
    rounded F m = 0 ↔ m ≤ pow2 (emin F - F.M) / 2 := by
  have hp := pow2_pos (emin F - F.M)
  obtain hhi | hlo := le_or_gt (pow2 (emin F)) m
  · have hge := le_rounded hm (representable_pow2 F le_rfl) hhi
    have hpos := pow2_pos (emin F)
    have hsmall : pow2 (emin F - F.M) ≤ pow2 (emin F) := pow2_le_iff.2 (by omega)
    exact iff_of_false (by linarith) (by linarith)
  · have hu : ulp F m = pow2 (emin F - F.M) := ulp_of_lt hm (hlo.trans (pow2_lt_iff.2 (by omega)))
    rw [rounded, mul_eq_zero_iff_right (ulp_pos F m).ne', Nat.cast_eq_zero, ← Nat.le_zero, significand, scale_eq, hu,
      rneInt_le_even_iff (by positivity) rfl, div_le_iff₀ hp]
    ring_nf

/-- RoundToFormat overflows to the infinity of its sign, exactly from the threshold on (R18). -/
theorem roundToFormat_eq_inf_iff (F : Format) (s : Bool) {m : ℚ} (hm : 0 < m) :
    (roundToFormat F s m = inf F s ↔ (2 - pow2 (-precision F)) * pow2 (emax F) ≤ m) ∧
      (isInf (roundToFormat F s m) = true → roundToFormat F s m = inf F s) := by
  rw [← pow2_le_rounded_iff hm]
  obtain ⟨hge, hr⟩ | ⟨hlt, hfin, -⟩ := roundToFormat_cases F s hm
  · exact ⟨iff_of_true hr hge, fun _ => hr⟩
  · have hinf : isInf (roundToFormat F s m) = false := (not_nan_inf_of_finite hfin).2
    refine ⟨iff_of_false (fun h => ?_) (not_le.2 hlt), fun h => ?_⟩
    · simp [h] at hinf
    · simp [h] at hinf

/-- RoundToFormat underflows to the zero of its sign, exactly up to half of Fmin (R18). -/
theorem roundToFormat_eq_zero_iff (F : Format) (s : Bool) {m : ℚ} (hm : 0 < m) :
    (roundToFormat F s m = zero F s ↔ m ≤ pow2 (emin F - F.M) / 2) ∧
      (isZero (roundToFormat F s m) = true → roundToFormat F s m = zero F s) := by
  rw [← rounded_eq_zero_iff hm]
  obtain ⟨hge, hr⟩ | ⟨-, -, hsign, -, hzero, -⟩ := roundToFormat_cases F s hm
  · have hpos := pow2_pos (emax F + 1)
    refine ⟨iff_of_false (fun h => ?_) (by linarith), fun h => ?_⟩
    · simpa [hr] using congrArg isZero h
    · simp [hr] at h
  · have heq : isZero (roundToFormat F s m) = true → roundToFormat F s m = zero F s := fun h => by
      simpa [hsign] using eq_zero_of_isZero h
    exact ⟨⟨fun h => hzero.1 (by simp [h]), fun h => heq (hzero.2 h)⟩, heq⟩

/-- The magnitude of a finite pattern as a grid point of its binade. -/
theorem finite_grid_point {F : Format} {x : Pattern F} (hx : isFinite x = true) :
    ∃ (e : ℤ) (n : ℕ), emin F ≤ e ∧ e ≤ emax F ∧ n < 2 ^ (F.M + 1) ∧ |val x| = n * pow2 (e - F.M) := by
  obtain ⟨e, n, hlo, hhi, hn, hnorm, heq⟩ := finite_cases hx
  obtain ⟨-, -, hval, -⟩ := packGrid_spec F (sign x) e n hlo hhi hnorm hn
  refine ⟨e, n, hlo, hhi, hn, ?_⟩
  rw [heq, hval, abs_signValue_mul, abs_of_nonneg (mul_nonneg n.cast_nonneg (pow2_pos _).le)]

/-- A finite nonzero pattern has magnitude from Fmin to Fmax (R18). -/
theorem abs_val_bounds {F : Format} {x : Pattern F} (hx : isFinite x = true) (hz : isZero x = false) :
    pow2 (emin F - F.M) ≤ |val x| ∧ |val x| ≤ (2 - pow2 (-F.M)) * pow2 (emax F) := by
  have hpos := val_abs_pos hx hz
  obtain ⟨e, n, hlo, hhi, hn, habs⟩ := finite_grid_point hx
  rw [habs] at hpos ⊢
  have h1 : (1 : ℚ) ≤ n := by
    rw [Nat.one_le_cast, Nat.one_le_iff_ne_zero]
    rintro rfl
    simp at hpos
  have h2 : (n : ℚ) ≤ (2 ^ (F.M + 1) : ℕ) - 1 := by
    rw [le_sub_iff_add_le]; exact_mod_cast hn
  constructor
  · calc pow2 (emin F - F.M) ≤ pow2 (e - F.M) := pow2_le_iff.2 (by omega)
      _ ≤ n * pow2 (e - F.M) := le_mul_of_one_le_left (pow2_pos _).le h1
  · calc (n : ℚ) * pow2 (e - F.M) ≤ n * pow2 (emax F - F.M) :=
          mul_le_mul_of_nonneg_left (pow2_le_iff.2 (by omega)) n.cast_nonneg
      _ ≤ ((2 ^ (F.M + 1) : ℕ) - 1) * pow2 (emax F - F.M) := mul_le_mul_of_nonneg_right h2 (pow2_pos _).le
      _ = _ := by rw [fmax_eq, pow2_top_eq]; ring

/-- Settles O32: the thresholds in terms of the grid at its two ends, and the table's values by evaluation. -/
theorem roundingThresholds : Obligations.RoundingThresholds := by
  unfold Obligations.RoundingThresholds
  refine ⟨fun F s m hm => ?_, fun F => ?_, fun F => ?_, fun F => ?_, by decide +kernel, by decide +kernel,
    by decide +kernel, fun F x hx hne => ?_⟩
  · obtain ⟨hinf, hinf'⟩ := roundToFormat_eq_inf_iff F s hm
    obtain ⟨hzero, hzero'⟩ := roundToFormat_eq_zero_iff F s hm
    exact ⟨hinf, hinf', hzero, hzero'⟩
  · cases F <;> decide +kernel
  · rw [threshold_eq, fmax_eq]; ring
  · cases F <;> decide +kernel
  · refine abs_val_bounds hx (Bool.eq_false_iff.2 fun h => hne (eq_zero_of_isZero h))

end Sys2Proof.Machine

/-! SUPPORT. The unit's own NaN policy and the reference policy, function by function (00_scope.md R19, R20). -/

namespace Sys2Proof.Machine

/-- A NaN read as free bits is itself (log entry 3). -/
theorem asNaN_of_isNaN {F : Format} {x : Pattern F} (h : isNaN x = true) : asNaN F x = x := by
  have hf : frac x ≠ 0 := fun h0 => by simp [isNaN, h0] at h
  apply pattern_ext
  · simp [asNaN]
  · simp [asNaN, expf_of_isNaN h]
  · rw [asNaN, frac_pack, if_neg hf]

/-- Whatever its free bits are, the unit's policy answers NaNs. -/
theorem unitPolicy_lawful : unitPolicy.Lawful where
  convNaN_isNaN Fs Fd x _ := isNaN_asNaN Fd (Config.convNaNBits Fs Fd x)
  defaultNaN_isNaN F := isNaN_asNaN F (Config.defaultNaNBits F)
  propNaN_isNaN F x y _ := isNaN_asNaN F (Config.propNaNBits F x y)

/-- Settles O34: free bits always become a NaN, and a NaN's own bits become itself (log entry 3). -/
theorem unitPolicyGivesNaNs : Obligations.UnitPolicyGivesNaNs := by
  unfold Obligations.UnitPolicyGivesNaNs
  exact ⟨unitPolicy_lawful, fun _ _ h => asNaN_of_isNaN h⟩

/-- convNaN of the reference policy is a quiet NaN of the operand's sign, on every operand (R20). -/
theorem reference_convNaN_quiet (b : Bool) (Fs Fd : Format) (x : Pattern Fs) :
    isNaN ((referencePolicy b).convNaN Fs Fd x) = true ∧ isQuiet ((referencePolicy b).convNaN Fs Fd x) = true ∧
      sign ((referencePolicy b).convNaN Fs Fd x) = sign x := by
  obtain ⟨hnan, hquiet⟩ := isNaN_quiet (x := pack Fd (sign x) (BitVec.allOnes Fd.E)
    (BitVec.ofNat Fd.M (carryFraction Fs Fd (frac x).toNat))) (expf_pack ..)
  exact ⟨hnan, hquiet, (quiet_fields _).1.trans (sign_pack ..)⟩

/-- The bits of the fraction that R20's convNaN carries over. -/
theorem testBit_carryFraction (Fs Fd : Format) (f : BitVec Fs.M) (i : Nat) :
    (carryFraction Fs Fd f.toNat).testBit i =
      if Fd.M ≤ Fs.M then f.getLsbD (i + (Fs.M - Fd.M))
      else decide (Fd.M - Fs.M ≤ i) && f.getLsbD (i - (Fd.M - Fs.M)) := by
  unfold carryFraction
  split
  · exact Nat.testBit_div_two_pow ..
  · exact Nat.testBit_mul_two_pow ..

/-- The payload rule of the reference policy: the carried fraction with the quiet bit set (R20). -/
theorem reference_convNaN_frac (b : Bool) (Fs Fd : Format) (x : Pattern Fs) {i : Nat} (hi : i < Fd.M) :
    (frac ((referencePolicy b).convNaN Fs Fd x)).getLsbD i =
      (decide (i = Fd.M - 1) || (carryFraction Fs Fd (frac x).toNat).testBit i) := by
  have hfrac : frac ((referencePolicy b).convNaN Fs Fd x) =
      BitVec.ofNat Fd.M (carryFraction Fs Fd (frac x).toNat) ||| BitVec.twoPow Fd.M (Fd.M - 1) := by
    rw [← frac_pack Fd (sign x) (BitVec.allOnes Fd.E) (BitVec.ofNat _ _)]
    exact (quiet_fields _).2.2
  have hM : Fd.M - 1 < Fd.M := by omega
  rw [hfrac, BitVec.getLsbD_or, BitVec.getLsbD_twoPow, BitVec.getLsbD_ofNat]
  simp [hi, hM, eq_comm, Bool.or_comm]

/-- Quieting sets bit M-1 and no other (R20). -/
theorem getLsbD_quiet {F : Format} (x : Pattern F) (i : Nat) :
    (quiet x).getLsbD i = (x.getLsbD i || decide (i = F.M - 1)) := by
  have h : F.M - 1 < F.w := by have := width_eq F; omega
  simp [quiet, BitVec.getLsbD_twoPow, h, eq_comm]

theorem reference_propNaN_of_isNaN (b : Bool) {F : Format} {x : Pattern F} (y : Pattern F) (h : isNaN x = true) :
    (referencePolicy b).propNaN F x y = quiet x := by simp [referencePolicy, h]

theorem reference_propNaN_of_not_isNaN (b : Bool) {F : Format} {x : Pattern F} (y : Pattern F) (h : isNaN x = false) :
    (referencePolicy b).propNaN F x y = quiet y := by simp [referencePolicy, h]

/-- The fields of the reference policy's default NaN (R20). -/
theorem reference_defaultNaN_fields (b : Bool) (F : Format) :
    sign ((referencePolicy b).defaultNaN F) = b ∧
      expf ((referencePolicy b).defaultNaN F) = BitVec.allOnes F.E ∧
      frac ((referencePolicy b).defaultNaN F) = BitVec.twoPow F.M (F.M - 1) :=
  ⟨sign_pack .., expf_pack .., frac_pack ..⟩

/-- The default NaN is the zero of its sign read as free bits: asNaN puts the quiet bit in. -/
theorem reference_defaultNaN_eq_asNaN (b : Bool) (F : Format) :
    (referencePolicy b).defaultNaN F = asNaN F (zero F b) := by simp [referencePolicy, asNaN]

/-- The reference policy is a policy in the sense of R19, for both values of DEFAULT_NAN_SIGN. -/
theorem referencePolicy_lawful (b : Bool) : (referencePolicy b).Lawful where
  convNaN_isNaN Fs Fd x _ := (reference_convNaN_quiet b Fs Fd x).1
  defaultNaN_isNaN F := by rw [reference_defaultNaN_eq_asNaN]; exact isNaN_asNaN ..
  propNaN_isNaN F x y h := by
    cases hx : isNaN x with
    | true =>
      rw [reference_propNaN_of_isNaN b y hx]
      exact (isNaN_quiet (expf_of_isNaN hx)).1
    | false =>
      rw [reference_propNaN_of_not_isNaN b y hx]
      exact (isNaN_quiet (expf_of_isNaN (h.resolve_left (by simp [hx])))).1

/-- Settles O35, one lemma per function of the policy. -/
theorem referencePolicyIsLawful : Obligations.ReferencePolicyIsLawful := by
  unfold Obligations.ReferencePolicyIsLawful
  refine ⟨referencePolicy_lawful, fun b Fs Fd x => ?_, fun b F x y => ?_, fun _ x i => getLsbD_quiet x i,
    reference_defaultNaN_fields, by decide⟩
  · obtain ⟨-, hquiet, hsign⟩ := reference_convNaN_quiet b Fs Fd x
    refine ⟨hquiet, hsign, fun i hi => ?_⟩
    rw [reference_convNaN_frac b Fs Fd x hi, testBit_carryFraction]
  · exact ⟨reference_propNaN_of_isNaN b y, reference_propNaN_of_not_isNaN b y⟩

end Sys2Proof.Machine

/-! SUPPORT. Widen never rounds, and the codes of the characters (00_scope.md R21, R23, R24). -/

namespace Sys2Proof.Machine

theorem emax_le_emax_D (F : Prec) : emax F.fmt ≤ emax .D := by cases F <;> decide

/-- Widen of a finite pattern that is not zero is finite, of the same sign and value (R21). -/
theorem widen_finite_exact (P : NaNPolicy) (F : Prec) {x : Pattern F.fmt} (hx : isFinite x = true)
    (hz : isZero x = false) :
    isFinite (widen P F x) = true ∧ val (widen P F x) = val x ∧ sign (widen P F x) = sign x ∧
      isZero (widen P F x) = false := by
  obtain ⟨hrep, hval, hlt, -⟩ := finite_val hx
  have hpos := val_abs_pos hx hz
  have hself := rounded_eq_self hpos (representable_widen F hrep)
  rw [widen_finite P F hx hz]
  obtain ⟨hge, -⟩ | ⟨-, hfin, hsign, hval', hzero, -⟩ := roundToFormat_cases .D (sign x) hpos
  · have hle : pow2 (emax F.fmt + 1) ≤ pow2 (emax .D + 1) := pow2_le_iff.2 (by have := emax_le_emax_D F; omega)
    exact absurd hlt (not_lt.2 (hle.trans (hself ▸ hge)))
  · refine ⟨hfin, by rw [hval', hself, ← hval], hsign, Bool.eq_false_iff.2 fun h => ?_⟩
    exact hpos.ne' (hself ▸ hzero.1 h)

/-- Widen of a NaN is the policy's conversion (R21). -/
theorem widen_nan (P : NaNPolicy) (F : Prec) {x : Pattern F.fmt} (h : isNaN x = true) :
    widen P F x = P.convNaN F.fmt .D x := by simp [widen, h]

/-- Settles O38, by the class of the pattern. -/
theorem widenIsExact : Obligations.WidenIsExact := by
  unfold Obligations.WidenIsExact
  intro P F x
  refine ⟨fun hx => ?_, widen_zero P F, widen_inf P F, widen_nan P F⟩
  cases hz : isZero x with
  | false => exact widen_finite_exact P F hx hz
  | true =>
    rw [widen_zero P F hz, val_of_isZero hz, val_of_isZero (isZero_zero ..)]
    exact ⟨isFinite_zero .., rfl, sign_zero .., isZero_zero ..⟩

/-- HexValue undoes HexDigit (R23). -/
theorem hexValue_hexDigit (v : BitVec 4) : hexValue (hexDigit v) = v := by
  revert v; decide

/-- HexDigit undoes HexValue on the sixteen digits (R23). -/
theorem hexDigit_hexValue {c : Byte} (h : isHexChar c = true) : hexDigit (hexValue c) = c := by
  revert c; decide

/-- Settles O58, over the sixteen digit values and the 256 character codes. -/
theorem charactersHaveTheirCodes : Obligations.CharactersHaveTheirCodes := by
  unfold Obligations.CharactersHaveTheirCodes
  exact ⟨by decide, rfl, rfl, hexValue_hexDigit, by decide, fun _ => hexDigit_hexValue, rfl, rfl, rfl, by decide⟩

end Sys2Proof.Machine

/-! SUPPORT. The text registers: what every string the unit writes has in common, and the induction along grouping
(10_state.md R29, R34; 42_extract.md R76; 43_group.md R80). -/

namespace Sys2Proof.Machine

/-- Induction along grouping: strings of at most four characters, and a full run before a rest that is not empty. -/
theorem groupRuns_induction {motive : Text → Prop} (short : ∀ t, t.length ≤ 4 → motive t)
    (long : ∀ a b c d e r, motive (e :: r) → motive (a :: b :: c :: d :: e :: r)) : ∀ t, motive t
  | a :: b :: c :: d :: e :: r => long a b c d e r (groupRuns_induction short long (e :: r))
  | [] | [_] | [_, _] | [_, _, _] | [_, _, _, _] => short _ (by simp)

/-- Grouping puts one space after each fourth character that another follows (R80). -/
theorem groupRuns_length (t : Text) : (groupRuns t).length = t.length + (t.length - 1) / 4 := by
  induction t using groupRuns_induction with
  | short t h => rw [groupRuns_short h]; omega
  | long a b c d e r ih =>
    rw [groupRuns_cons, List.length_append, ih]
    simp only [List.length_cons, List.length_nil]
    omega

/-- Grouping adds no character but spaces (R80). -/
theorem mem_groupRuns {t : Text} {x : Byte} (h : x ∈ groupRuns t) : x ∈ t ∨ x = spaceChar := by
  induction t using groupRuns_induction with
  | short t ht => exact .inl (groupRuns_short ht ▸ h)
  | long a b c d e r ih =>
    rw [groupRuns_cons, List.mem_append] at h
    rcases h with h | h
    · simp only [List.mem_cons, List.not_mem_nil, or_false] at h ⊢
      tauto
    · exact (ih h).imp_left fun hx => by simp only [List.mem_cons] at hx ⊢; tauto

theorem groupRuns_inAlphabet {t : Text} (h : t.all isBinChar = true) : (groupRuns t).all inAlphabet = true := by
  rw [List.all_eq_true] at h ⊢
  intro x hx
  rcases mem_groupRuns hx with hx | rfl
  · exact inAlphabet_of_isBinChar (h x hx)
  · rfl

/-- GRP's output is a string over the alphabet. -/
theorem groupString_inAlphabet {limit : GrpMaxChars} {s out : Text} (h : groupString limit s = some out) :
    out.all inAlphabet = true := by
  unfold groupString at h
  split at h
  · cases h
  · obtain ⟨b, hb, rfl⟩ := Option.map_eq_some_iff.1 h
    exact groupRuns_inAlphabet (groupSource_all hb)

theorem hexString_inAlphabet (F : Format) (x : Pattern F) : (hexString F x).all inAlphabet = true := by
  have hdigit (v : BitVec 4) : inAlphabet (hexDigit v) = true := by simp [inAlphabet, isHexChar_hexDigit]
  have hprefix : inAlphabet zeroChar = true ∧ inAlphabet xChar = true := by decide
  simp [hexString, hdigit, hprefix]

theorem binString_inAlphabet (F : Format) (x : Pattern F) : (binString F x).all inAlphabet = true :=
  List.all_eq_true.2 fun _ hc => inAlphabet_of_isBinChar (List.all_eq_true.1 (binString_all F x) _ hc)

/-- The text registers after a command of kind k: strings over the alphabet (R34) of at most 39 characters, except
TXT[0] after GRP (R29). -/
def TextsFit (k : Kind) (r : Response) : Prop :=
  ∀ j t, r.txt j = some t → t.all inAlphabet = true ∧ (t.length ≤ 39 ∨ (j = 0 ∧ k = .grp))

theorem textsFit_unwritten (k : Kind) : TextsFit k .unwritten := fun _ _ h => by simp at h

theorem textsFit_num (k : Kind) (v : BitVec 32) : TextsFit k { Response.unwritten with resR := some v } := by
  intro j t h
  match j with
  | 0 | 1 | 2 | 3 | 4 | 5 => cases h

theorem hexString_fits (F : Prec) (x : Pattern F.fmt) :
    (hexString F.fmt x).all inAlphabet = true ∧ (hexString F.fmt x).length ≤ 39 :=
  ⟨hexString_inAlphabet .., by rw [hexString_length]; cases F <;> decide⟩

theorem binString_fits (F : Prec) (x : Pattern F.fmt) :
    (binString F.fmt x).all inAlphabet = true ∧ (binString F.fmt x).length ≤ 39 :=
  ⟨binString_inAlphabet .., by rw [binString_length]; cases F <;> decide⟩

/-- The longest grouped string of RUN has 32 digits and 7 spaces. -/
theorem groupRuns_binString_fits (F : Prec) (x : Pattern F.fmt) :
    (groupRuns (binString F.fmt x)).all inAlphabet = true ∧ (groupRuns (binString F.fmt x)).length ≤ 39 :=
  ⟨groupRuns_inAlphabet (binString_all ..), by rw [groupRuns_length, binString_length]; cases F <;> decide⟩

theorem textsFit_xtr (k : Kind) (F : Prec) (x : Pattern F.fmt) :
    TextsFit k
      { Response.unwritten with txt0 := some (hexString F.fmt x), txt1 := some (binString F.fmt x) } := by
  intro j t h
  match j with
  | 0 => cases h; exact (hexString_fits F x).imp_right .inl
  | 1 => cases h; exact (binString_fits F x).imp_right .inl
  | 2 | 3 | 4 | 5 => cases h

theorem textsFit_grp {g : Text} (hg : g.all inAlphabet = true) :
    TextsFit .grp { Response.unwritten with txt0 := some g } := by
  intro j t h
  match j with
  | 0 => cases h; exact ⟨hg, .inr ⟨rfl, rfl⟩⟩
  | 1 | 2 | 3 | 4 | 5 => cases h

theorem textsFit_run (k : Kind) (F : Prec) (a b r : Pattern F.fmt) : TextsFit k (runOutputs F a b r) := by
  intro j t h
  rw [runOutputs_eq] at h
  match j with
  | 0 | 2 | 4 => cases h; exact (hexString_fits F _).imp_right .inl
  | 1 | 3 | 5 => cases h; exact (groupRuns_binString_fits F _).imp_right .inl

/-- Every command leaves fitting strings in the text registers. -/
theorem exec_textsFit {i : Instr} {s t : State} (h : exec i s = .next t) : TextsFit (kindOf i) t.resp := by
  cases i with
  | grp =>
    obtain ⟨out, hout, he⟩ | ⟨-, he⟩ := execGrp_cases s
    · cases he.symm.trans h; exact textsFit_grp (groupString_inAlphabet hout)
    · cases he.symm.trans h; exact textsFit_unwritten _
  | add | sub | mul | div | cvt => cases h; exact textsFit_num _ _
  | xtr => cases h; exact textsFit_xtr _ _ _
  | runAdd | runSub | runMul | runDiv => cases h; exact textsFit_run _ _ _ _ _

end Sys2Proof.Machine

/-! SUPPORT. The invariant of the unit: the STATUS bytes the unit writes, the registers and strings that go with them, and
that every step keeps it (10_state.md R29, R30, R31, R34, R35, R36). -/

namespace Sys2Proof.Machine

open Sys2Proof.Safety

/-- The STATUS bytes the unit leaves when the registers that hold values are those of kind k: a completed command's
(R36), and for no register also reset's (R103) and the errors' (R90, R91). -/
def StatusFor (k : Kind) (b : Byte) : Prop :=
  b = statusDone k ∨ (k = .none ∧ (b = 0 ∨ ∃ e, b = statusError e))

/-- The fields of such a byte: what R30 and R31 ask of STATUS. -/
theorem StatusFor.fields {k : Kind} {b : Byte} (h : StatusFor k b) :
    b.extractLsb' 6 2 = 0 ∧ (b.getLsbD 0 = false → b.extractLsb' 1 2 = 0 ∧ b.extractLsb' 3 3 = 0) ∧
      (b.extractLsb' 1 2 ≠ 0 → b.extractLsb' 3 3 = 0) ∧ b.extractLsb' 1 2 ≠ 3 ∧ b.extractLsb' 3 3 = k.code := by
  obtain rfl | ⟨rfl, rfl | ⟨e, rfl⟩⟩ := h
  · cases k <;> decide
  · decide
  · cases e <;> decide

/-- STATUS, the registers and their strings fitting one kind make up the invariant. -/
theorem unitInv_of_kind {t : State} {k : Kind} (hstatus : StatusFor k t.status) (hholds : HoldsFor k t.resp)
    (htexts : TextsFit k t.resp) : UnitInv t := by
  obtain ⟨hreserved, hvalid, herror, hcode, hkind⟩ := hstatus.fields
  exact {
    reserved := hreserved
    notValid := hvalid
    error := herror
    errCode := hcode
    written := ⟨k, hkind, readReg_isSome_of_holdsFor hholds⟩
    texts := fun j x hx => by
      obtain ⟨halphabet, hlength⟩ := htexts j x hx
      exact ⟨halphabet, hlength.imp_right fun ⟨hj, hk⟩ => ⟨hj, hk ▸ hkind⟩⟩ }

/-- With every register Unwritten, the invariant needs STATUS alone: after a reset or an error. -/
theorem unitInv_of_unwritten {t : State} (hresp : t.resp = .unwritten)
    (hstatus : t.status = 0 ∨ ∃ e, t.status = statusError e) : UnitInv t :=
  unitInv_of_kind (.inr ⟨rfl, hstatus⟩) (hresp ▸ holdsFor_unwritten) (hresp ▸ textsFit_unwritten _)

/-- The invariant looks at STATUS and the response registers alone. -/
theorem unitInv_congr {s t : State} (h : UnitInv s) (hstatus : s.status = t.status) (hresp : s.resp = t.resp) :
    UnitInv t := by
  cases s
  cases t
  cases hstatus
  cases hresp
  exact ⟨h.reserved, h.notValid, h.error, h.errCode, h.written, h.texts⟩

/-- A command leaves the invariant behind it, whatever the unit held before. -/
theorem exec_unitInv {i : Instr} {s t : State} (h : exec i s = .next t) : UnitInv t := by
  have htexts := exec_textsFit h
  obtain ⟨r, he, hholds, -⟩ | ⟨-, -, he⟩ := exec_cases i s
  · cases he.symm.trans h; exact unitInv_of_kind (.inl rfl) hholds htexts
  · cases he.symm.trans h; exact unitInv_of_unwritten rfl (.inr ⟨_, rfl⟩)

/-- Settles O15: reset leaves STATUS = 0x00 and every register Unwritten. -/
theorem resetStateHasInvariant : Obligations.ResetStateHasInvariant := by
  unfold Obligations.ResetStateHasInvariant
  exact unitInv_of_unwritten rfl (.inl rfl)

/-- Settles O16, by the host's next interaction: commands, errors and resets establish the invariant; an idle step and
a read change neither STATUS nor a register. -/
theorem everyStepKeepsInvariant : Obligations.EveryStepKeepsInvariant := by
  unfold Obligations.EveryStepKeepsInvariant
  intro s t hs h
  obtain ⟨-, rfl⟩ | ⟨p, act, i, -, -, hexec⟩ | ⟨p, act, e, -, -, rfl⟩ | ⟨r, act, v, -, -, rfl⟩ | ⟨act, -, rfl⟩ :=
    step_cases h
  · exact hs
  · exact exec_unitInv hexec
  · exact unitInv_of_unwritten rfl (.inr ⟨_, rfl⟩)
  · exact unitInv_congr hs rfl rfl
  · exact unitInv_of_unwritten rfl (.inl rfl)

end Sys2Proof.Machine

/-! SUPPORT. The step equations, one for each interaction of the host, and what a command's issue completes with
(10_state.md R31, R32, R36, R37; 70_reset_and_hazards.md R107). -/

namespace Sys2Proof.Machine

theorem step_issue_ok {s : State} {p : Ports} {act : List HostAction} {i : Instr} (h : s.host = .issue p :: act)
    (hd : decode p.cmd = .ok i) : step s = exec i { s with ports := p, host := act } := by
  simp [step, h, issueCommand, hd, State.sample]

theorem step_issue_error {s : State} {p : Ports} {act : List HostAction} {e : Reserved}
    (h : s.host = .issue p :: act) (hd : decode p.cmd = .error e) :
    step s = .next (State.raise { s with ports := p, host := act } .unsup) := by
  simp [step, h, issueCommand, hd, State.sample]

theorem step_read {s : State} {r : RegName} {act : List HostAction} (h : s.host = .read r :: act) :
    step s = hostRead r { s with host := act } := by simp [step, h]

theorem hostRead_of_some {r : RegName} {s : State} {v : RegValue} (h : s.readReg r = some v) :
    hostRead r s = .next { s with delivered := v :: s.delivered } := by simp [hostRead, h]

/-- The decoder reads back the word of every command (R49 to R52). -/
theorem decode_encode (i : Instr) : decode (encode i) = .ok i := by
  cases i with
  | grp => decide
  | add f | sub f | mul f | div f | cvt f | xtr f | runAdd f | runSub f | runMul f | runDiv f =>
    cases f <;> decide

/-- withFetchWord of a command's own word puts the issue of that command first (log entry 5). -/
theorem withFetchWord_host_encode (s : State) (i : Instr) :
    (s.withFetchWord 8 (encode i).toNat).host = .issue { s.ports with cmd := encode i } :: s.host := by
  have hword : BitVec.ofNat 8 ((encode i).toNat % 2 ^ 8) = encode i := by
    rw [Nat.mod_eq_of_lt (encode i).isLt, BitVec.ofNat_toNat, BitVec.setWidth_eq]
  rw [State.withFetchWord, hword]

/-- Settles O8, by the step equation of an issue; the word placed is the next issue. -/
theorem stepRunsDecodedCommand : Obligations.StepRunsDecodedCommand := by
  unfold Obligations.StepRunsDecodedCommand
  exact ⟨fun _ _ _ _ h hd => step_issue_ok h hd,
    fun s i => step_issue_ok (withFetchWord_host_encode s i) (decode_encode i)⟩

/-- Settles O9: a read steps to the host read, which looks the register up by its name. -/
theorem hostReadDeliversOrFaults : Obligations.HostReadDeliversOrFaults := by
  unfold Obligations.HostReadDeliversOrFaults
  refine ⟨fun s r act h => ?_, fun s => ⟨rfl, rfl, rfl, rfl, rfl, rfl, rfl, rfl, rfl, rfl⟩⟩
  have hkeep : State.readReg { s with host := act } r = s.readReg r := readReg_congr rfl rfl r
  rw [step_read h, ← hkeep]
  exact ⟨fun v hv => hostRead_of_some hv, hostRead_stop⟩

/-- Settles O59: each field of STATUS is a quotient and remainder of the byte; the codes and tables by cases. -/
theorem statusFieldsAndCodes : Obligations.StatusFieldsAndCodes := by
  unfold Obligations.StatusFieldsAndCodes
  refine ⟨fun s => ?_, rfl, rfl, rfl, fun i => ?_, fun k r hr => ?_⟩
  · have hvalid : s.valid.toNat = s.status.toNat % 2 := by
      rw [State.valid, BitVec.getLsbD, Nat.toNat_testBit]; simp
    simp only [State.err, State.kindField, hvalid, BitVec.extractLsb'_toNat, Nat.shiftRight_eq_div_pow]
    omega
  · cases i <;> rfl
  · cases r with
    | status => exact absurd rfl hr
    | resR | resA | resB => cases k <;> decide
    | txt j => revert j; cases k <;> decide

theorem valid_of_done {s : State} {k : Kind} (h : s.status = statusDone k) : s.valid = true := by
  rw [State.valid, h]; cases k <;> rfl

theorem valid_of_error {s : State} {e : CmdError} (h : s.status = statusError e) : s.valid = true := by
  rw [State.valid, h]; cases e <;> rfl

theorem statusDone_num : statusDone .num = 0x09 := rfl
theorem statusDone_xtr : statusDone .xtr = 0x11 := rfl
theorem statusDone_grp : statusDone .grp = 0x19 := rfl
theorem statusDone_run : statusDone .run = 0x21 := rfl
theorem statusError_unsup : statusError .unsup = 0x03 := rfl
theorem statusError_malformed : statusError .malformed = 0x05 := rfl

/-- Settles O11: a reserved word raises UnsupportedOperation, and a decoded command completes or (GRP) raises
MalformedInput. -/
theorem everyIssueCompletesWithItsStatus : Obligations.EveryIssueCompletesWithItsStatus := by
  unfold Obligations.EveryIssueCompletesWithItsStatus
  intro s p act h
  cases hd : decode p.cmd with
  | error e => exact ⟨_, step_issue_error h hd, valid_of_error rfl, rfl, statusError_unsup⟩
  | ok i =>
    rw [step_issue_ok h hd]
    obtain ⟨r, he, -, hgrp⟩ | ⟨rfl, hnone, he⟩ := exec_cases i { s with ports := p, host := act }
    · refine ⟨_, he, valid_of_done rfl, rfl, ?_⟩
      cases i with
      | grp => exact statusDone_grp.trans (if_pos (hgrp rfl)).symm
      | add | sub | mul | div | cvt => exact statusDone_num
      | xtr => exact statusDone_xtr
      | runAdd | runSub | runMul | runDiv => exact statusDone_run
    · have hrefused : ¬(groupString Config.grpMaxChars p.sin).isSome = true := by simp [hnone]
      exact ⟨_, he, valid_of_error rfl, rfl, statusError_malformed.trans (if_neg hrefused).symm⟩

/-- A register that the kind does not name is Unwritten. -/
theorem readReg_eq_none_of_holdsFor {s : State} {k : Kind} (h : HoldsFor k s.resp) {r : RegName}
    (hr : k.writes r = false) : s.readReg r = none := by
  simpa [hr] using readReg_isSome_of_holdsFor h r

theorem Kind.none_writes_of_ne_status {r : RegName} (h : r ≠ .status) : Kind.none.writes r = false := by
  cases r with
  | status => exact absurd rfl h
  | resR | resA | resB | txt => rfl

theorem Kind.ne_status_of_not_writes {k : Kind} {r : RegName} (h : k.writes r = false) : r ≠ .status := by
  rintro rfl
  cases k <;> cases h

/-- Settles O12: a command completes with exactly the registers of its kind, or GRP raises MalformedInput. -/
theorem commandFrame : Obligations.CommandFrame := by
  unfold Obligations.CommandFrame
  intro i s t h
  obtain ⟨r, he, hholds, -⟩ | ⟨rfl, -, he⟩ := exec_cases i s
  · cases he.symm.trans h
    exact ⟨rfl, rfl, rfl, fun _ => readReg_eq_none_of_holdsFor hholds,
      fun _ reg hw => (readReg_isSome_of_holdsFor hholds reg).trans hw,
      fun herr => absurd (err_of_done (complete_status ..)) herr⟩
  · cases he.symm.trans h
    have hnone (reg : RegName) (hr : reg ≠ .status) : (s.raise .malformed).readReg reg = none :=
      readReg_eq_none_of_holdsFor holdsFor_unwritten (Kind.none_writes_of_ne_status hr)
    have herr : (s.raise .malformed).err ≠ 0 := by rw [err_of_error (raise_status ..)]; decide
    exact ⟨rfl, rfl, rfl, fun reg hw => hnone reg (Kind.ne_status_of_not_writes hw), fun h0 => absurd h0 herr,
      fun _ => ⟨rfl, statusError_malformed, hnone⟩⟩

theorem execGrp_of_some {s : State} {out : Text} (h : groupString Config.grpMaxChars s.ports.sin = some out) :
    execGrp s = .next (s.complete .grp { Response.unwritten with txt0 := some out }) := by
  simp [execGrp, operandSIN, h]

theorem execGrp_of_none {s : State} (h : groupString Config.grpMaxChars s.ports.sin = none) :
    execGrp s = .next (s.raise .malformed) := by simp [execGrp, operandSIN, h]

/-- A command's observation is a function of the ports (R37). -/
theorem exec_observation_congr {i : Instr} {s s' t t' : State} (h : exec i s = .next t) (h' : exec i s' = .next t')
    (hp : s.ports = s'.ports) : t.observation = t'.observation := by
  cases i with
  | grp =>
    cases hg : groupString Config.grpMaxChars s.ports.sin with
    | some out =>
      cases (execGrp_of_some hg).symm.trans h
      cases (execGrp_of_some (hp ▸ hg)).symm.trans h'
      rfl
    | none =>
      cases (execGrp_of_none hg).symm.trans h
      cases (execGrp_of_none (hp ▸ hg)).symm.trans h'
      rfl
  | add | sub | mul | div | cvt | xtr | runAdd | runSub | runMul | runDiv =>
    cases h
    cases h'
    cases s
    cases hp
    rfl

/-- Settles O13: a reserved word leaves the same error everywhere, and a command looks at its ports alone. -/
theorem outputsDependOnPortsOnly : Obligations.OutputsDependOnPortsOnly := by
  unfold Obligations.OutputsDependOnPortsOnly
  intro s s' p act act' t t' hs hs' h h'
  cases hd : decode p.cmd with
  | error e =>
    cases (step_issue_error hs hd).symm.trans h
    cases (step_issue_error hs' hd).symm.trans h'
    rfl
  | ok i =>
    exact exec_observation_congr ((step_issue_ok hs hd).symm.trans h) ((step_issue_ok hs' hd).symm.trans h') rfl

/-- A word in a numeric register is zext_32 of a result in the command's own format (R32). -/
theorem exec_word_eq_resultWord {i : Instr} {s t : State} {v : BitVec 32} (h : exec i s = .next t)
    (hv : t.resp.resR = some v ∨ t.resp.resA = some v ∨ t.resp.resB = some v) :
    ∃ F, F.bit = i.fmtBit ∧ ∃ x : Pattern F.fmt, v = resultWord F x := by
  cases i with
  | add f | sub f | mul f | div f | cvt f =>
    cases h
    obtain hv | hv | hv := hv <;> cases hv
    exact ⟨f, rfl, _, rfl⟩
  | xtr f =>
    cases h
    obtain hv | hv | hv := hv <;> cases hv
  | grp =>
    obtain ⟨out, -, he⟩ | ⟨-, he⟩ := execGrp_cases s
    · cases he.symm.trans h
      obtain hv | hv | hv := hv <;> cases hv
    · cases he.symm.trans h
      obtain hv | hv | hv := hv <;> cases hv
  | runAdd f | runSub f | runMul f | runDiv f =>
    cases h
    obtain hv | hv | hv := hv <;> cases hv <;> exact ⟨f, rfl, _, rfl⟩

/-- zext_32 of an H pattern has a zero upper half (R32). -/
theorem resultWord_half_upper (x : Pattern .H) : (resultWord .H x).extractLsb' 16 16 = 0 := by
  have hx : x.toNat < 2 ^ 16 := x.isLt
  apply BitVec.eq_of_toNat_eq
  simp [resultWord, Nat.shiftRight_eq_div_pow]
  omega

/-- Settles O26: the listed commands have FMT = 0, so what they hold is zext_32 of an H pattern. -/
theorem halfResultsAreZeroExtended : Obligations.HalfResultsAreZeroExtended := by
  unfold Obligations.HalfResultsAreZeroExtended
  intro i s t v hi h hv
  have hfmt : (!i.fmtBit) = true := (List.all_eq_true (p := fun j => !j.fmtBit)).1 (by decide) i hi
  obtain ⟨F, hF, x, rfl⟩ := exec_word_eq_resultWord h hv
  cases F with
  | H => exact resultWord_half_upper x
  | S => simp [← hF, Prec.bit] at hfmt

end Sys2Proof.Machine

/-! SUPPORT. The decoder and the encoder said once, in both directions, and the reserved words as the complement of the
well-formed ones (30_encoding.md R49 to R53, R55, R57). -/

namespace Sys2Proof.Machine

@[simp] theorem bit_ofFmt (b : Bool) : (Prec.ofFmt b).bit = b := by cases b <;> rfl

/-- The three fields make up the word (R49). -/
theorem toByte_ofByte (w : Byte) : (CmdWord.ofByte w).toByte = w := by
  revert w; decide

/-- The OP case of Decode answers only the command whose OP value and FMT bit it was given (R50 to R52). -/
theorem op_and_fmt_of_decodeOp {op : Nat} {fmt : Bool} {i : Instr} (h : decodeOp op fmt = .ok i) :
    i.op.toNat = op ∧ i.fmtBit = fmt := by
  unfold decodeOp at h
  split at h
  case h_7 =>
    cases fmt with
    | false => cases h; exact ⟨rfl, rfl⟩
    | true => cases h
  case h_12 => cases h
  all_goals
    cases h
    exact ⟨rfl, bit_ofFmt fmt⟩

theorem decode_of_rsv_eq_zero {w : Byte} (h : (CmdWord.ofByte w).rsv = 0) :
    decode w = decodeOp (CmdWord.ofByte w).op.toNat (CmdWord.ofByte w).fmt := if_neg (not_not.2 h)

theorem decode_of_rsv_ne_zero {w : Byte} (h : (CmdWord.ofByte w).rsv ≠ 0) : decode w = .error .rsvNonzero := if_pos h

/-- A word that decodes has the fields of the command it decodes to. -/
theorem fields_of_decode {w : Byte} {i : Instr} (h : decode w = .ok i) : i.fields = CmdWord.ofByte w := by
  by_cases hrsv : (CmdWord.ofByte w).rsv = 0
  · rw [decode_of_rsv_eq_zero hrsv] at h
    obtain ⟨hop, hfmt⟩ := op_and_fmt_of_decodeOp h
    rw [Instr.fields, hfmt, BitVec.eq_of_toNat_eq hop, ← hrsv]
  · cases (decode_of_rsv_ne_zero hrsv).symm.trans h

/-- No word but a command's own decodes to it. -/
theorem eq_encode_of_decode {w : Byte} {i : Instr} (h : decode w = .ok i) : w = encode i := by
  rw [encode, fields_of_decode h, toByte_ofByte]

theorem decode_eq_ok_iff {w : Byte} {i : Instr} : decode w = .ok i ↔ w = encode i :=
  ⟨eq_encode_of_decode, fun h => h ▸ decode_encode i⟩

/-- The table's decoder reads an 8-bit word's number as the decoder reads the word. -/
theorem decodeTableWord_of_decode {w : Byte} {i : Instr} (h : decode w = .ok i) :
    decodeTableWord 8 w.toNat = some i := by
  have hlt : w.toNat < 256 := w.isLt
  simp [decodeTableWord, Nat.mod_eq_of_lt hlt, hlt, h]

/-- Settles O4: a word that decodes has the fields of its command, and the fields make up the word. -/
theorem decodeAndEncodeAgree : Obligations.DecodeAndEncodeAgree := by
  unfold Obligations.DecodeAndEncodeAgree
  exact ⟨fun _ _ => decode_eq_ok_iff, fun i => decodeTableWord_of_decode (decode_encode i)⟩

/-- The OP case of Decode refuses by the second and third conditions of R55. -/
theorem decodeOp_isOk (c : CmdWord) : (decodeOp c.op.toNat c.fmt).isOk = (c.opOk && c.fmtOk) := by
  have hcases : ∀ (op : BitVec 4) (fmt : Bool),
      (decodeOp op.toNat fmt).isOk = (op != 0x7 && decide (op.toNat < 0xC) && !(op == 0x6 && fmt)) := by decide
  exact hcases c.op c.fmt

theorem wellFormed_eq_false_of_rsv {c : CmdWord} (h : c.rsv ≠ 0) : c.wellFormed = false := by
  rw [CmdWord.wellFormed, CmdWord.rsvOk, beq_false_of_ne h, Bool.false_and, Bool.false_and]

/-- Decode accepts exactly the well-formed words (R52, R55). -/
theorem decode_isOk (w : Byte) : (decode w).isOk = (CmdWord.ofByte w).wellFormed := by
  by_cases hrsv : (CmdWord.ofByte w).rsv = 0
  · simp [decode_of_rsv_eq_zero hrsv, decodeOp_isOk, CmdWord.wellFormed, CmdWord.rsvOk, hrsv]
  · rw [decode_of_rsv_ne_zero hrsv, wellFormed_eq_false_of_rsv hrsv]
    rfl

theorem decode_error_iff {w : Byte} : (∃ e, decode w = .error e) ↔ (CmdWord.ofByte w).wellFormed = false := by
  rw [← decode_isOk]
  cases decode w with
  | ok i => simp [Except.isOk, Except.toBool]
  | error e => simp [Except.isOk, Except.toBool]

/-- The three conditions of R55 together are the complement of well-formedness. -/
theorem reserved_eq_not_wellFormed (c : CmdWord) :
    (c.rsv != 0 || c.op == 0x7 || decide (0xC ≤ c.op.toNat) || (c.op == 0x6 && c.fmt)) = !c.wellFormed := by
  have hle : decide (0xC ≤ c.op.toNat) = !decide (c.op.toNat < 0xC) := by
    rw [← decide_not, decide_eq_decide, Nat.not_lt]
  simp only [CmdWord.wellFormed, CmdWord.rsvOk, CmdWord.opOk, CmdWord.fmtOk, hle, bne, Bool.not_and, Bool.not_or,
    Bool.not_not, Bool.or_assoc]

/-- From 0x20 on RSV is not 000. -/
theorem rsv_ne_zero_of_le {n : Nat} (hlo : 32 ≤ n) (hhi : n < 256) :
    (CmdWord.ofByte (BitVec.ofNat 8 n)).rsv ≠ 0 := by
  intro h
  have hnat := congrArg BitVec.toNat h
  simp [CmdWord.ofByte, Nat.shiftRight_eq_div_pow] at hnat
  omega

/-- Eleven of the words with RSV = 000 are not well formed, and none of the 224 others is (R55). -/
theorem length_filter_not_wellFormed :
    ((List.range 256).filter fun n => !(CmdWord.ofByte (BitVec.ofNat 8 n)).wellFormed).length = 235 := by
  have hlow : ((List.range 32).filter fun n => !(CmdWord.ofByte (BitVec.ofNat 8 n)).wellFormed).length = 11 := by
    decide
  have hhigh : ∀ n ∈ (List.range 224).map (32 + ·), (!(CmdWord.ofByte (BitVec.ofNat 8 n)).wellFormed) = true := by
    intro n hn
    obtain ⟨k, hk, rfl⟩ := List.mem_map.1 hn
    rw [List.mem_range] at hk
    rw [wellFormed_eq_false_of_rsv (rsv_ne_zero_of_le (by omega) (by omega)), Bool.not_false]
  rw [show 256 = 32 + 224 from rfl, List.range_add, List.filter_append, List.length_append, hlow,
    List.filter_eq_self.2 hhigh, List.length_map, List.length_range]

/-- Settles O2: the reserved words are those that are not well formed, and the issue of one raises
UnsupportedOperation. -/
theorem reservedWordsRaiseUnsupported : Obligations.ReservedWordsRaiseUnsupported := by
  unfold Obligations.ReservedWordsRaiseUnsupported
  intro reserved
  have hnot (w : Byte) : reserved w = !(CmdWord.ofByte w).wellFormed := reserved_eq_not_wellFormed (.ofByte w)
  have hreserved (w : Byte) : reserved w = true ↔ ∃ e, decode w = .error e := by
    rw [decode_error_iff, hnot, Bool.not_eq_true']
  refine ⟨hreserved, ?_, fun s p act h hp => ?_⟩
  · simpa only [hnot] using length_filter_not_wellFormed
  · obtain ⟨e, he⟩ := (hreserved p.cmd).1 hp
    exact ⟨_, step_issue_error h he, err_of_error (raise_status ..),
      fun r hr => readReg_eq_none_of_holdsFor holdsFor_unwritten (Kind.none_writes_of_ne_status hr)⟩

/-- The list of commands is complete (R53). -/
theorem mem_allCommands (i : Instr) : i ∈ allCommands := by
  cases i with
  | grp => decide
  | add f | sub f | mul f | div f | cvt f | xtr f | runAdd f | runSub f | runMul f | runDiv f =>
    cases f <;> decide

/-- Settles O1: the table lists every command beside its encoding, and no other word decodes. -/
theorem validCommandWordsAreTheseTwentyOne : Obligations.ValidCommandWordsAreTheseTwentyOne := by
  unfold Obligations.ValidCommandWordsAreTheseTwentyOne
  intro table
  have hall : ∀ i ∈ allCommands, encode i ∈ table.map Prod.fst := by decide
  refine ⟨rfl, by decide, fun e he => decode_eq_ok_iff.2 ?_, fun w hw => ?_⟩
  · revert e; decide
  · cases hd : decode w with
    | error e => exact ⟨e, rfl⟩
    | ok i => exact absurd (eq_encode_of_decode hd ▸ hall i (mem_allCommands i)) hw

/-- The CLI rejects every `--bits` value but 16 and 32 (R57). -/
theorem ofBits_eq_none {n : Nat} (h16 : n ≠ 16) (h32 : n ≠ 32) : Prec.ofBits n = none := by
  unfold Prec.ofBits
  split
  · exact absurd rfl h16
  · exact absurd rfl h32
  · rfl

/-- Settles O5: the two accepted `--bits` values by evaluation, every other one by `ofBits_eq_none`. -/
theorem cliLineStandsForRun : Obligations.CliLineStandsForRun := by
  unfold Obligations.CliLineStandsForRun
  refine ⟨fun _ => ⟨rfl, rfl⟩, rfl, rfl, fun n op h16 h32 => ?_, fun F => ?_⟩
  · rw [cliCommand, ofBits_eq_none h16 h32, Option.map_none]
  · cases F <;> decide

end Sys2Proof.Machine

/-! SUPPORT. A command's observation as a function of the operands it reads (30_encoding.md R54; 10_state.md R28). -/

namespace Sys2Proof.Machine

/-- ADD, SUB, MUL and DIV read the low bits of XA and XB alone. -/
theorem runArith_observation_congr (op : Op) (F : Prec) {s s' : State} (ha : operandXA F s = operandXA F s')
    (hb : operandXB F s = operandXB F s') : (runArith op F s).observation = (runArith op F s').observation := by
  simp [State.observation, runArith, ha, hb]

/-- The four RUN commands read A64 and B64 alone. -/
theorem runPipeline_observation_congr (op : Op) (F : Prec) {s s' : State} (ha : operandA64 s = operandA64 s')
    (hb : operandB64 s = operandB64 s') :
    (runPipeline op F s).observation = (runPipeline op F s').observation := by
  simp [State.observation, runPipeline, ha, hb]

/-- GRP reads SIN alone. -/
theorem execGrp_observation_congr {s s' t t' : State} (hsin : operandSIN s = operandSIN s')
    (h : execGrp s = .next t) (h' : execGrp s' = .next t') : t.observation = t'.observation := by
  obtain ⟨out, hout, he⟩ | ⟨hnone, he⟩ := execGrp_cases s
  · cases he.symm.trans h
    cases (execGrp_of_some ((congrArg _ hsin).symm.trans hout)).symm.trans h'
    rfl
  · cases he.symm.trans h
    cases (execGrp_of_none ((congrArg _ hsin).symm.trans hnone)).symm.trans h'
    rfl

/-- The operands a command reads are the same in both states, and the rest of the ports need not be (R54). -/
def SameOperands (s s' : State) : Instr → Prop
  | .add F | .sub F | .mul F | .div F => operandXA F s = operandXA F s' ∧ operandXB F s = operandXB F s'
  | .cvt _ => operandA64 s = operandA64 s'
  | .xtr F => operandXA F s = operandXA F s'
  | .grp => operandSIN s = operandSIN s'
  | .runAdd _ | .runSub _ | .runMul _ | .runDiv _ => operandA64 s = operandA64 s' ∧ operandB64 s = operandB64 s'

/-- A command's observation is a function of the operands it reads. -/
theorem exec_observation_of_sameOperands {i : Instr} {s s' t t' : State} (hops : SameOperands s s' i)
    (h : exec i s = .next t) (h' : exec i s' = .next t') : t.observation = t'.observation := by
  cases i with
  | add F | sub F | mul F | div F =>
    obtain ⟨ha, hb⟩ := hops
    cases h
    cases h'
    exact runArith_observation_congr _ F ha hb
  | cvt F =>
    cases h
    cases h'
    simp [State.observation, show operandA64 s = operandA64 s' from hops]
  | xtr F =>
    cases h
    cases h'
    simp [State.observation, show operandXA F s = operandXA F s' from hops]
  | grp => exact execGrp_observation_congr hops h h'
  | runAdd F | runSub F | runMul F | runDiv F =>
    obtain ⟨ha, hb⟩ := hops
    cases h
    cases h'
    exact runPipeline_observation_congr _ F ha hb

/-- Settles O14: port values that agree on the bits a command reads give it the same operands. -/
theorem unreadPortBitsAreIgnored : Obligations.UnreadPortBitsAreIgnored := by
  unfold Obligations.UnreadPortBitsAreIgnored
  intro same F p q
  have hsame {i : Instr} (hops : ∀ s : State, SameOperands { s with ports := p } { s with ports := q } i) :
      same i p q := fun s _ _ => exec_observation_of_sameOperands (hops s)
  refine ⟨fun ha hb => ?_, fun ha => hsame fun _ => ha, fun ha => hsame fun _ => ha, fun hsin => hsame fun _ => hsin,
    fun ha hb => ?_⟩
  · refine ⟨?_, ?_, ?_, ?_⟩ <;> exact hsame fun _ => ⟨ha, hb⟩
  · refine ⟨?_, ?_, ?_, ?_⟩ <;> exact hsame fun _ => ⟨ha, hb⟩

end Sys2Proof.Machine

/-! SUPPORT. Assembly lines: the mnemonic ends at the first space and names one command (30_encoding.md R56, R57). -/

namespace Sys2Proof.Machine

theorem cutAt_space_append {name : Text} (h : spaceChar ∉ name) (t : Text) :
    cutAt [spaceChar] (name ++ spaceChar :: t) = some (name, t) := by
  induction name with
  | nil => simp [cutAt]
  | cons c cs ih =>
    obtain ⟨hc, hcs⟩ := not_or.1 (List.mem_cons.not.1 h)
    simp [cutAt, ih hcs, hc]

theorem space_not_mem_asmName (i : Instr) : spaceChar ∉ ascii (asmName i) := by
  have hall : ∀ j ∈ allCommands, spaceChar ∉ ascii (asmName j) := by decide
  exact hall i (mem_allCommands i)

/-- A mnemonic names one command. -/
theorem find_asmName (i : Instr) :
    allCommands.find? (fun j => ascii (asmName j) == ascii (asmName i)) = some i := by
  have hall : ∀ k ∈ allCommands, allCommands.find? (fun j => ascii (asmName j) == ascii (asmName k)) = some k := by
    decide
  exact hall i (mem_allCommands i)

/-- A command's mnemonic, a space and its operands assemble to that command's word and operands (R56). -/
theorem assemble_command (base : Ports) (i : Instr) (t : Text) :
    assemble base (ascii (asmName i) ++ spaceChar :: t) =
      (operandPorts base i t).map fun p => { p with cmd := encode i } := by
  rw [assemble, cutAt_space_append (space_not_mem_asmName i)]
  simp only [find_asmName]

/-- The pattern of a power of two is normal, with that value. -/
theorem pack_pow2 {F : Format} {e : ℤ} (hlo : emin F ≤ e) (hhi : e ≤ emax F) :
    isNormal (pack F false (BitVec.ofNat F.E (e + bias F).toNat) 0) = true ∧
      val (pack F false (BitVec.ofNat F.E (e + bias F).toNat) 0) = pow2 e := by
  obtain ⟨-, -, hnormal, hval⟩ :=
    pack_normal F false e (2 ^ F.M) hlo hhi le_rfl (Nat.pow_lt_pow_right one_lt_two F.M.lt_succ_self)
  rw [Nat.sub_self] at hnormal hval
  refine ⟨hnormal, hval.trans ?_⟩
  rw [← pow2_natCast, ← pow2_add, add_sub_cancel]
  exact one_mul _

theorem isFinite_of_isNormal {F : Format} {x : Pattern F} (h : isNormal x = true) : isFinite x = true := by
  rw [isFinite, h, Bool.or_true]

/-- The nearest binary64 pattern to a power of two in range is that power's own (R57). -/
theorem nearestBinary64_pow2 {e : ℤ} (hlo : emin .D ≤ e) (hhi : e ≤ emax .D) :
    nearestBinary64 false (pow2 e) = pack .D false (BitVec.ofNat Format.D.E (e + bias .D).toNat) 0 := by
  obtain ⟨hnormal, hval⟩ := pack_pow2 hlo hhi
  have hpos := pow2_pos e
  have hself := formatValuesRoundToThemselves .D _ (isFinite_of_isNormal hnormal)
    (Bool.eq_false_iff.2 fun hzero => hpos.ne' (hval.symm.trans (val_of_isZero hzero)))
  rw [sign_pack, hval, abs_of_pos hpos] at hself
  rw [nearestBinary64, if_neg hpos.ne', hself]

/-- R57's decimal literals 1.0 and 2.0 as binary64 patterns. -/
theorem operandPair_decimal_one_two :
    operandPair binary64Operand (ascii "1.0, 2.0") = some (0x3ff0000000000000, 0x4000000000000000) := by
  have hread : operandPair binary64Operand (ascii "1.0, 2.0") =
      some (nearestBinary64 false 1, nearestBinary64 false 2) := rfl
  have hone : nearestBinary64 false 1 = 0x3ff0000000000000 := nearestBinary64_pow2 (e := 0) (by decide) (by decide)
  have htwo : nearestBinary64 false 2 = 0x4000000000000000 := nearestBinary64_pow2 (e := 1) (by decide) (by decide)
  rw [hread, hone, htwo]

/-- Settles O6: each line is a command's mnemonic, a space and its operands, and the operands are read by evaluation. -/
theorem assemblyExamplesOfTheSpec : Obligations.AssemblyExamplesOfTheSpec := by
  unfold Obligations.AssemblyExamplesOfTheSpec
  intro base
  have hdecimal : assemble base (ascii "RUN.ADD.S 1.0, 2.0") =
      some { base with cmd := 0x18, a64 := 0x3ff0000000000000, b64 := 0x4000000000000000 } :=
    (assemble_command base (.runAdd .S) (ascii "1.0, 2.0")).trans <| by
      rw [operandPorts, operandPair_decimal_one_two]
      rfl
  exact ⟨assemble_command base (.add .S) (ascii "0x3f800000, 0x40000000"),
    assemble_command base (.cvt .H) (ascii "0x3ff0000000000000"),
    assemble_command base (.xtr .H) (ascii "0x7c00"),
    assemble_command base .grp (ascii "\"0x1\""),
    assemble_command base (.runDiv .H) (ascii "0x3ff0000000000000, 0x0000000000000000"),
    hdecimal,
    hdecimal.trans (assemble_command base (.runAdd .S) (ascii "0x3ff0000000000000, 0x4000000000000000")).symm⟩

end Sys2Proof.Machine

/-! SUPPORT. Conversion from binary64 to a format: the rows of CVT's table, the round trip through Widen, idempotence,
and the whole state after CVT (40_convert.md R58 to R62). -/

namespace Sys2Proof.Machine

/-- ConvertD of a NaN is the policy's conversion (R22). -/
theorem convertD_nan (P : NaNPolicy) (F : Prec) {d : Pattern .D} (h : isNaN d = true) :
    convertD P F d = P.convNaN .D F.fmt d := by simp [convertD, h]

theorem isZero_eq_false_of_abs_val_pos {F : Format} {x : Pattern F} (h : 0 < |val x|) : isZero x = false :=
  Bool.eq_false_iff.2 fun hz => by simp [val_of_isZero hz] at h

theorem isFinite_of_isSub {F : Format} {x : Pattern F} (h : isSub x = true) : isFinite x = true := by
  rw [isFinite, h, Bool.or_true, Bool.true_or]

theorem overflow_threshold_pos (F : Format) : 0 < (2 - pow2 (-precision F)) * pow2 (emax F) := by
  have hlt : pow2 (-precision F) < pow2 1 := pow2_lt_iff.2 (by omega)
  exact mul_pos (sub_pos.2 hlt) (pow2_pos _)

/-- Every binary64 subnormal lies below half of the least magnitude of H and of S (R60, last row). -/
theorem pow2_emin_D_le_half_fmin (F : Prec) : pow2 (emin .D) ≤ pow2 (emin F.fmt - F.fmt.M) / 2 := by
  have hexp : emin .D + 1 ≤ emin F.fmt - F.fmt.M := by cases F <;> decide
  rw [le_div_iff₀ two_pos]
  calc pow2 (emin .D) * 2 = pow2 (emin .D + 1) := (pow2_add _ 1).symm
    _ ≤ _ := pow2_le_iff.2 hexp

/-- A finite operand from the overflow threshold on converts to the infinity of its sign (R60). -/
theorem convertD_overflow (P : NaNPolicy) (F : Prec) {x : Pattern .D} (hx : isFinite x = true)
    (h : (2 - pow2 (-precision F.fmt)) * pow2 (emax F.fmt) ≤ |val x|) : convertD P F x = inf F.fmt (sign x) := by
  have hpos := (overflow_threshold_pos F.fmt).trans_le h
  rw [convertD_finite P F hx (isZero_eq_false_of_abs_val_pos hpos)]
  exact (roundToFormat_eq_inf_iff F.fmt (sign x) hpos).1.2 h

/-- A finite operand up to half of Fmin converts to the zero of its sign (R60). -/
theorem convertD_underflow (P : NaNPolicy) (F : Prec) {x : Pattern .D} (hx : isFinite x = true)
    (h : |val x| ≤ pow2 (emin F.fmt - F.fmt.M) / 2) : convertD P F x = zero F.fmt (sign x) := by
  cases hz : isZero x with
  | true => exact convertD_zero P F hz
  | false =>
    rw [convertD_finite P F hx hz]
    exact (roundToFormat_eq_zero_iff F.fmt (sign x) (val_abs_pos hx hz)).1.2 h

/-- A binary64 subnormal underflows in H and in S (R60). -/
theorem convertD_subnormal (P : NaNPolicy) (F : Prec) {x : Pattern .D} (h : isSub x = true) :
    convertD P F x = zero F.fmt (sign x) :=
  convertD_underflow P F (isFinite_of_isSub h) ((lt_emin_of_isSub h).le.trans (pow2_emin_D_le_half_fmin F))

/-- Strictly between R18's two thresholds RoundToFormat gives neither an infinity nor a zero. -/
theorem roundToFormat_between {F : Format} (s : Bool) {m : ℚ} (hlo : pow2 (emin F - F.M) / 2 < m)
    (hhi : m < (2 - pow2 (-precision F)) * pow2 (emax F)) :
    isInf (roundToFormat F s m) = false ∧ isZero (roundToFormat F s m) = false := by
  have hm : 0 < m := (half_pos (pow2_pos _)).trans hlo
  obtain ⟨hinf, hinf'⟩ := roundToFormat_eq_inf_iff F s hm
  obtain ⟨hzero, hzero'⟩ := roundToFormat_eq_zero_iff F s hm
  exact ⟨Bool.eq_false_iff.2 fun h => hhi.not_ge (hinf.1 (hinf' h)),
    Bool.eq_false_iff.2 fun h => hlo.not_ge (hzero.1 (hzero' h))⟩

/-- Settles O39, row by row; between the thresholds the result is the nearest value, because RoundToFormat's is. -/
theorem conversionCornerCases : Obligations.ConversionCornerCases := by
  unfold Obligations.ConversionCornerCases
  intro P F x
  refine ⟨convertD_zero P F, convertD_inf P F, convertD_nan P F, convertD_overflow P F, convertD_underflow P F,
    convertD_subnormal P F, convertD_finite P F, fun hx hlo hhi => ?_⟩
  have hpos : 0 < |val x| := (half_pos (pow2_pos _)).trans hlo
  obtain ⟨hinf, hzero⟩ := roundToFormat_between (sign x) hlo hhi
  obtain ⟨hfin, hsign, hnear⟩ := roundingGivesNearestTiesToEven F.fmt (sign x) |val x| hpos hinf
  obtain ⟨-, hval, -⟩ := finite_val hx
  rw [← hval] at hnear
  rw [convertD_finite P F hx (isZero_eq_false_of_abs_val_pos hpos)]
  exact ⟨hfin, hzero, hsign, isSub_iff_lt_emin hfin hzero, hnear⟩

theorem signValue_injective : Function.Injective signValue := by decide

/-- A nonzero value determines the sign bit, across formats. -/
theorem sign_eq_of_val_eq {F G : Format} {x : Pattern F} {y : Pattern G} (hx : isFinite x = true)
    (hy : isFinite y = true) (hz : isZero x = false) (h : val x = val y) : sign x = sign y := by
  obtain ⟨-, hvx, -⟩ := finite_val hx
  obtain ⟨-, hvy, -⟩ := finite_val hy
  have hsigned : signValue (sign x) * |val x| = signValue (sign y) * |val x| := by rw [← hvx, h, ← hvy]
  exact signValue_injective (mul_right_cancel₀ (val_abs_pos hx hz).ne' hsigned)

/-- ConvertD of a nonzero value that F has is the pattern of F with that value (R61). -/
theorem convertD_eq_of_val_eq (P : NaNPolicy) (F : Prec) {d : Pattern .D} {y : Pattern F.fmt}
    (hd : isFinite d = true) (hz : isZero d = false) (hy : isFinite y = true) (h : val y = val d) :
    convertD P F d = y := by
  have hpos := val_abs_pos hd hz
  have hyz : isZero y = false := isZero_eq_false_of_abs_val_pos (h ▸ hpos)
  rw [convertD_finite P F hd hz, ← h, ← sign_eq_of_val_eq hy hd hyz h]
  exact formatValuesRoundToThemselves F.fmt y hy hyz

/-- Widen followed by ConvertD is the identity off NaNs, by the class of the pattern (R61). -/
theorem convertD_widen (P : NaNPolicy) (F : Prec) {x : Pattern F.fmt} (h : isNaN x = false) :
    convertD P F (widen P F x) = x := by
  obtain hnan | hinf | hfin := class_cases F.fmt x
  · simp [h] at hnan
  · rw [widen_inf P F hinf, convertD_inf P F (isInf_inf ..), sign_inf]
    exact (eq_inf_of_isInf hinf).symm
  · cases hz : isZero x with
    | true =>
      rw [widen_zero P F hz, convertD_zero P F (isZero_zero ..), sign_zero]
      exact (eq_zero_of_isZero hz).symm
    | false =>
      obtain ⟨hwfin, hwval, -, hwz⟩ := widen_finite_exact P F hfin hz
      exact convertD_eq_of_val_eq P F hwfin hwz hfin hwval.symm

/-- Settles O40: a zero converts to the zero of its sign, and any other value to the pattern that has it. -/
theorem conversionRoundTrips : Obligations.ConversionRoundTrips := by
  unfold Obligations.ConversionRoundTrips
  refine fun P F => ⟨fun d hd ⟨y, hy, hval⟩ => ?_, fun x => convertD_widen P F⟩
  cases hz : isZero d with
  | true =>
    rw [convertD_zero P F hz, val_of_isZero hz]
    exact ⟨isFinite_zero .., val_of_isZero (isZero_zero ..), sign_zero ..⟩
  | false =>
    rw [convertD_eq_of_val_eq P F hd hz hy hval]
    exact ⟨hy, hval, (sign_eq_of_val_eq hd hy hz hval.symm).symm⟩

theorem isNaN_roundToFormat (F : Format) (s : Bool) {m : ℚ} (hm : 0 < m) : isNaN (roundToFormat F s m) = false := by
  obtain ⟨-, hinf⟩ | ⟨-, hfin, -⟩ := roundToFormat_cases F s hm
  · rw [hinf, isNaN_inf]
  · exact (not_nan_inf_of_finite hfin).1

/-- ConvertD makes no NaN of its own (R22). -/
theorem isNaN_convertD (P : NaNPolicy) (F : Prec) {d : Pattern .D} (h : isNaN d = false) :
    isNaN (convertD P F d) = false := by
  obtain hnan | hinf | hfin := class_cases .D d
  · simp [h] at hnan
  · rw [convertD_inf P F hinf, isNaN_inf]
  · cases hz : isZero d with
    | true => rw [convertD_zero P F hz, isNaN_zero]
    | false =>
      rw [convertD_finite P F hfin hz]
      exact isNaN_roundToFormat _ _ (val_abs_pos hfin hz)

/-- Converting, widening and converting again, on a NaN: convNaN three times. -/
theorem convertD_widen_convertD_nan {P : NaNPolicy} (hP : P.Lawful) (F : Prec) {d : Pattern .D}
    (h : isNaN d = true) :
    convertD P F (widen P F (convertD P F d)) =
      P.convNaN .D F.fmt (P.convNaN F.fmt .D (P.convNaN .D F.fmt d)) := by
  have hy := hP.convNaN_isNaN .D F.fmt d h
  rw [convertD_nan P F h, widen_nan P F hy, convertD_nan P F (hP.convNaN_isNaN F.fmt .D _ hy)]

/-- The reference policy carries a NaN of H or S to binary64 and back with its quiet bit set and no other bit changed:
the fraction bits appended on the way out are those dropped on the way back (R20). -/
theorem reference_frac_convNaN_convNaN (b : Bool) (F : Prec) (y : Pattern F.fmt) {i : Nat} (hi : i < F.fmt.M) :
    (frac ((referencePolicy b).convNaN .D F.fmt ((referencePolicy b).convNaN F.fmt .D y))).getLsbD i =
      (decide (i = F.fmt.M - 1) || (frac y).getLsbD i) := by
  have hM : F.fmt.M < Format.D.M := by cases F <;> decide
  have htop : i + (Format.D.M - F.fmt.M) = Format.D.M - 1 ↔ i = F.fmt.M - 1 := by omega
  rw [reference_convNaN_frac b .D F.fmt _ hi, testBit_carryFraction, if_pos hM.le,
    reference_convNaN_frac b F.fmt .D y (by omega), testBit_carryFraction, if_neg hM.not_ge, Nat.add_sub_cancel,
    decide_eq_true (Nat.le_add_left ..), Bool.true_and, decide_eq_decide.2 htop, ← Bool.or_assoc, Bool.or_self]

/-- The reference policy carries a quiet NaN of H or S to binary64 and back unchanged (R62). -/
theorem reference_convNaN_convNaN (b : Bool) (F : Prec) {y : Pattern F.fmt} (h : isQuiet y = true) :
    (referencePolicy b).convNaN .D F.fmt ((referencePolicy b).convNaN F.fmt .D y) = y := by
  obtain ⟨hnan, hbit⟩ : isNaN y = true ∧ (frac y).getLsbD (F.fmt.M - 1) = true := by simpa [isQuiet] using h
  obtain ⟨-, -, hsign⟩ := reference_convNaN_quiet b F.fmt .D y
  obtain ⟨hnan', -, hsign'⟩ := reference_convNaN_quiet b .D F.fmt ((referencePolicy b).convNaN F.fmt .D y)
  refine pattern_ext (hsign'.trans hsign) ?_ (BitVec.eq_of_getLsbD_eq fun i hi => ?_)
  · rw [expf_of_isNaN hnan', expf_of_isNaN hnan]
  · rw [reference_frac_convNaN_convNaN b F y hi]
    by_cases htop : i = F.fmt.M - 1
    · rw [htop, hbit, Bool.or_true]
    · rw [decide_eq_false htop, Bool.false_or]

@[simp] theorem sign_asNaN (F : Format) (bits : Pattern F) : sign (asNaN F bits) = sign bits := sign_pack ..

/-- A policy of R19 whose convNaN flips the sign of a NaN that comes from binary64 and keeps that of any other. -/
def signFlippingPolicy : NaNPolicy where
  convNaN Fs Fd x := asNaN Fd (zero Fd (decide (Fs = .D) ^^ sign x))
  defaultNaN F    := asNaN F (zero F false)
  propNaN F x _   := asNaN F x

theorem signFlippingPolicy_lawful : signFlippingPolicy.Lawful where
  convNaN_isNaN _ Fd _ _ := isNaN_asNaN Fd _
  defaultNaN_isNaN F := isNaN_asNaN F _
  propNaN_isNaN F x _ _ := isNaN_asNaN F x

@[simp] theorem sign_signFlippingPolicy_convNaN (Fs Fd : Format) (x : Pattern Fs) :
    sign (signFlippingPolicy.convNaN Fs Fd x) = (decide (Fs = .D) ^^ sign x) :=
  (sign_asNaN ..).trans (sign_zero ..)

/-- Under the sign-flipping policy a NaN converted twice has its own sign again, and converted once the other. -/
theorem signFlippingPolicy_not_idempotent (F : Prec) {d : Pattern .D} (h : isNaN d = true) :
    convertD signFlippingPolicy F (widen signFlippingPolicy F (convertD signFlippingPolicy F d)) ≠
      convertD signFlippingPolicy F d := by
  have hF : F.fmt ≠ .D := by cases F <;> decide
  rw [convertD_widen_convertD_nan signFlippingPolicy_lawful F h, convertD_nan _ F h]
  intro heq
  simpa [hF] using congrArg sign heq

/-- Settles O41: off NaNs by the round trip, and on a NaN by what the policy's convNaN does. -/
theorem conversionIsIdempotent : Obligations.ConversionIsIdempotent := by
  unfold Obligations.ConversionIsIdempotent
  refine ⟨fun P F d hd => convertD_widen P F (isNaN_convertD P F hd), fun P hP F d hd => ?_, fun b F d hd => ?_,
    fun F => ⟨signFlippingPolicy, signFlippingPolicy_lawful, 0x7ff8000000000000, by decide,
      signFlippingPolicy_not_idempotent F (by decide)⟩⟩
  · have hy := hP.convNaN_isNaN .D F.fmt d hd
    rw [convertD_widen_convertD_nan hP F hd, convertD_nan P F hd]
    exact ⟨hy, hP.convNaN_isNaN _ _ _ (hP.convNaN_isNaN _ _ _ hy)⟩
  · obtain ⟨-, hquiet, -⟩ := reference_convNaN_quiet b .D F.fmt d
    dsimp only
    rw [convertD_widen_convertD_nan (referencePolicy_lawful b) F hd, convertD_nan _ F hd]
    exact reference_convNaN_convNaN b F hquiet

/-- CVT's arm: the one rounding of A64, completed as a numeric result (R58, R59). -/
theorem exec_cvt (F : Prec) (s : State) :
    exec (.cvt F) s = .next (s.completeNum (resultWord F (convertD unitPolicy F s.ports.a64))) := rfl

/-- Settles O20: CVT's arm with the completion written out field by field. -/
theorem conversionCommandCompletes : Obligations.ConversionCommandCompletes := by
  unfold Obligations.ConversionCommandCompletes
  intro F s
  rw [exec_cvt, State.completeNum, State.complete, statusDone_num, resultWord]

end Sys2Proof.Machine

/-! SUPPORT. When rounding first to binary64 and then to H or S is the same as rounding once (41_arith.md R74): the two
differ only where the binary64 rounding lands on or crosses a midpoint of the target format. -/

namespace Sys2Proof.Machine

/-- h lies halfway between two neighbouring magnitudes of F, were its exponent unbounded above: an odd multiple
of half a spacing. -/
def Midpoint (F : Format) (h : ℚ) : Prop :=
  ∃ (e : ℤ) (n : ℕ), emin F ≤ e ∧ n < 2 ^ (F.M + 1) ∧ (2 ^ F.M ≤ n ∨ e = emin F) ∧
    h = (2 * n + 1 : ℕ) * pow2 (e - F.M - 1)

/-- The magnitudes of F that R17 rounds to, each on the grid of its own binade. -/
theorem representable_normalized {F : Format} {y : ℚ} (hy : Representable F y) :
    ∃ (e : ℤ) (n : ℕ), emin F ≤ e ∧ n < 2 ^ (F.M + 1) ∧ (2 ^ F.M ≤ n ∨ e = emin F) ∧ y = n * pow2 (e - F.M) := by
  obtain hle | hpos := le_or_gt y 0
  · obtain ⟨e, n, -, -, rfl⟩ := hy
    have hzero : (n : ℚ) * pow2 (e - F.M) = 0 := le_antisymm hle (mul_nonneg n.cast_nonneg (pow2_pos _).le)
    exact ⟨emin F, 0, le_rfl, by positivity, .inr rfl, by rw [hzero]; simp⟩
  · have hself : significand F y * ulp F y = y := rounded_eq_self hpos hy
    have hn : (significand F y : ℚ) = y / ulp F y := eq_div_of_mul_eq (ulp_pos F y).ne' hself
    refine ⟨gridExp F y, significand F y, gridExp_ge F y, ?_, ?_, hself.symm⟩
    · exact_mod_cast hn ▸ div_ulp_lt (F := F) hpos
    · by_cases he : gridExp F y = emin F
      · exact .inr he
      · exact .inl (le_significand hpos he)

/-- A power of two is twice the one below it. -/
theorem pow2_eq_two_mul_half (k : ℤ) : pow2 k = 2 * pow2 (k - 1) := by
  rw [show k = (k - 1) + 1 by ring, pow2_add, mul_comm, add_sub_cancel_right]; rfl

/-- Between two neighbouring magnitudes of F the grid is that of their binade. -/
theorem ulp_between_neighbours {F : Format} {e : ℤ} {n : ℕ} {h : ℚ} (he : emin F ≤ e) (hn : n < 2 ^ (F.M + 1))
    (hnorm : 2 ^ F.M ≤ n ∨ e = emin F) (hlo : n * pow2 (e - F.M) < h) (hhi : h < (n + 1 : ℕ) * pow2 (e - F.M)) :
    ulp F h = pow2 (e - F.M) := by
  have hp := pow2_pos (e - F.M)
  have hpos : 0 < h := (mul_nonneg n.cast_nonneg hp.le).trans_lt hlo
  have hbinade : ∀ i : ℕ, ((2 ^ (F.M + i) : ℕ) : ℚ) * pow2 (e - F.M) = pow2 (e + i) := fun i => by
    rw [← pow2_natCast, ← pow2_add]; congr 1; push_cast; ring
  have htop : h < pow2 (e + 1) :=
    hhi.trans_le ((mul_le_mul_of_nonneg_right (Nat.cast_le.2 hn) hp.le).trans_eq (hbinade 1))
  obtain hM | rfl := hnorm
  · have hbot : pow2 (e + 0) ≤ h :=
      (hbinade 0).symm.trans_le ((mul_le_mul_of_nonneg_right (Nat.cast_le.2 hM) hp.le).trans hlo.le)
    rw [add_zero] at hbot
    rw [ulp, gridExp_eq_max, floorLog2_unique hbot htop, max_eq_left he]
  · exact ulp_of_lt hpos htop

/-- F has no magnitude strictly between two neighbours, as the grid of a number h between them shows. -/
theorem representable_le_or_ge {F : Format} {e : ℤ} {n : ℕ} {h z : ℚ} (hulp : ulp F h = pow2 (e - F.M))
    (hlo : n * pow2 (e - F.M) < h) (hhi : h < (n + 1 : ℕ) * pow2 (e - F.M)) (hz : Representable F z) :
    z ≤ n * pow2 (e - F.M) ∨ (n + 1 : ℕ) * pow2 (e - F.M) ≤ z := by
  have hp := pow2_pos (e - F.M)
  have hpos : 0 < h := (mul_nonneg n.cast_nonneg hp.le).trans_lt hlo
  obtain hzh | hzh := le_total z h
  · obtain ⟨k, hk, hk'⟩ := grid_below hpos hz hzh
    rw [hulp] at hk hk'
    have hkn : k < n + 1 := by exact_mod_cast lt_of_mul_lt_mul_right (hk'.trans_lt hhi) hp.le
    exact .inl (hk.trans (mul_le_mul_of_nonneg_right (Nat.cast_le.2 (Nat.le_of_lt_succ hkn)) hp.le))
  · obtain ⟨k, hk, hk'⟩ := grid_above hpos hz hzh
    rw [hulp] at hk hk'
    have hkn : n < k := by exact_mod_cast lt_of_mul_lt_mul_right (hlo.trans_le hk) hp.le
    exact .inr ((mul_le_mul_of_nonneg_right (Nat.cast_le.2 hkn) hp.le).trans hk')

/-- The midpoint above a magnitude y of F: half a spacing above y, with y's successor as far again, and no magnitude of
F strictly between y and that successor. -/
theorem exists_midpoint_above {F : Format} {y : ℚ} (hy : Representable F y) :
    ∃ h, Midpoint F h ∧ y < h ∧ Representable F (2 * h - y) ∧ ∀ z, Representable F z → z ≤ y ∨ 2 * h - y ≤ z := by
  obtain ⟨e, n, he, hn, hnorm, rfl⟩ := representable_normalized hy
  have hp := pow2_pos (e - F.M - 1)
  have hspacing := pow2_eq_two_mul_half (e - F.M)
  refine ⟨(2 * n + 1 : ℕ) * pow2 (e - F.M - 1), ⟨e, n, he, hn, hnorm, rfl⟩, ?_⟩
  have hlo : n * pow2 (e - F.M) < (2 * n + 1 : ℕ) * pow2 (e - F.M - 1) := by rw [hspacing]; push_cast; linarith
  have hhi : (2 * n + 1 : ℕ) * pow2 (e - F.M - 1) < (n + 1 : ℕ) * pow2 (e - F.M) := by
    rw [hspacing]; push_cast; linarith
  have hsucc : 2 * ((2 * n + 1 : ℕ) * pow2 (e - F.M - 1)) - n * pow2 (e - F.M) = (n + 1 : ℕ) * pow2 (e - F.M) := by
    rw [hspacing]; push_cast; ring
  rw [hsucc]
  exact ⟨hlo, ⟨e, n + 1, he, hn, rfl⟩, fun z hz =>
    representable_le_or_ge (ulp_between_neighbours he hn hnorm hlo hhi) hlo hhi hz⟩

/-- No magnitude of F is nearer to m than the one it is rounded to. -/
theorem abs_rounded_sub_le {F : Format} {m z : ℚ} (hm : 0 < m) (hz : Representable F z) :
    |rounded F m - m| ≤ |z - m| := by
  have hnonneg : 0 ≤ z := by
    obtain ⟨e, n, -, -, rfl⟩ := hz
    exact mul_nonneg n.cast_nonneg (pow2_pos _).le
  exact (rounded_nearest hm (by rwa [abs_of_nonneg hnonneg])).1

/-- Rounding keeps order. -/
theorem rounded_mono {F : Format} {m r : ℚ} (hm : 0 < m) (hmr : m ≤ r) : rounded F m ≤ rounded F r := by
  have hr := hm.trans_le hmr
  by_contra hc
  have hrm := representable_rounded (F := F) hm
  have hrr := representable_rounded (F := F) hr
  have h1 : r < rounded F m := not_le.1 fun h => hc (le_rounded hr hrm h)
  have h2 : rounded F r < m := not_le.1 fun h => hc (rounded_le hm hrr h)
  have n1 := abs_rounded_sub_le hm hrr
  have n2 := abs_rounded_sub_le hr hrm
  rw [abs_of_pos (by linarith), abs_of_neg (by linarith)] at n1
  rw [abs_of_neg (by linarith), abs_of_pos (by linarith)] at n2
  have heq : m = r := by linarith
  exact hc (heq ▸ le_rfl)

/-- Two magnitudes that round apart have a midpoint between them. -/
theorem exists_midpoint_between {F : Format} {m r : ℚ} (hm : 0 < m) (hmr : m ≤ r) (hne : rounded F m ≠ rounded F r) :
    ∃ h, Midpoint F h ∧ m ≤ h ∧ h ≤ r := by
  have hr := hm.trans_le hmr
  have hlt := lt_of_le_of_ne (rounded_mono hm hmr) hne
  obtain ⟨h, hmid, hh, hsucc, hgap⟩ := exists_midpoint_above (representable_rounded (F := F) hm)
  have hrr := representable_rounded (F := F) hr
  have hup : 2 * h - rounded F m ≤ rounded F r := (hgap _ hrr).resolve_left (not_le.2 hlt)
  refine ⟨h, hmid, not_lt.1 fun hc => ?_, not_lt.1 fun hc => ?_⟩
  · have hbelow : m < 2 * h - rounded F m := not_le.1 fun hle => by
      have := le_rounded hm hsucc hle
      linarith
    have hnear := abs_rounded_sub_le hm hsucc
    rw [abs_of_neg (by linarith), abs_of_pos (by linarith)] at hnear
    linarith
  · have habove : rounded F m < r := not_le.1 fun hle => hlt.not_ge (rounded_le hr (representable_rounded hm) hle)
    have hnear := abs_rounded_sub_le hr (representable_rounded (F := F) hm)
    rw [abs_of_pos (by linarith), abs_of_neg (by linarith)] at hnear
    linarith

/-- From 2^emin on, rounding moves a magnitude by at most one part in 2^(M+1). -/
theorem abs_rounded_sub_self_le {F : Format} {m : ℚ} (hm : pow2 (emin F) ≤ m) :
    |rounded F m - m| ≤ m * pow2 (-precision F) := by
  have hpos := (pow2_pos _).trans_le hm
  have hu := ulp_pos F m
  have hscale : rounded F m - m = (rneInt (m / ulp F m) - m / ulp F m) * ulp F m := by
    rw [rounded, significand, scale_eq, sub_mul, div_mul_cancel₀ _ hu.ne']
  have hbinade : ulp F m ≤ m * pow2 (-F.M) := by
    rw [ulp, gridExp_eq_max, max_eq_left ((le_floorLog2_iff hpos).2 hm), sub_eq_add_neg, pow2_add]
    exact mul_le_mul_of_nonneg_right (floorLog2_spec hpos).1 (pow2_pos _).le
  rw [hscale, abs_mul, abs_of_pos hu]
  calc |(rneInt (m / ulp F m) : ℚ) - m / ulp F m| * ulp F m
      ≤ 1 / 2 * (m * pow2 (-F.M)) :=
        mul_le_mul (abs_rneInt_sub_le (div_nonneg hpos.le hu.le)).1 hbinade hu.le (by norm_num)
    _ = m * pow2 (-precision F) := by
        rw [pow2_eq_two_mul_half (-F.M), show (-precision F : ℤ) = -F.M - 1 by unfold precision; push_cast; ring]; ring

/-- m is no closer to a midpoint of F than binary64's relative error, unless binary64 has m itself. -/
def ClearOfMidpoints (F : Format) (m : ℚ) : Prop :=
  ∀ h, Midpoint F h → |m - h| ≤ m * pow2 (-53) → Representable .D m

/-- Rounding to binary64 first changes nothing for a magnitude clear of the midpoints of F (R74). -/
theorem rounded_rounded_D {F : Format} {m : ℚ} (hm : pow2 (emin .D) ≤ m) (hclear : ClearOfMidpoints F m) :
    rounded F (rounded .D m) = rounded F m := by
  have hpos := (pow2_pos _).trans_le hm
  have hpos' : 0 < rounded .D m := (pow2_pos _).trans_le (le_rounded hpos (representable_pow2 .D le_rfl) hm)
  have herr : |rounded .D m - m| ≤ m * pow2 (-53) := abs_rounded_sub_self_le hm
  by_contra hne
  suffices hbetween : ∃ h, Midpoint F h ∧ |m - h| ≤ |rounded .D m - m| by
    obtain ⟨h, hmid, hle⟩ := hbetween
    exact hne (congrArg _ (rounded_eq_self hpos (hclear h hmid (hle.trans herr))))
  obtain hle | hle := le_total m (rounded .D m)
  · obtain ⟨h, hmid, h1, h2⟩ := exists_midpoint_between hpos hle (Ne.symm hne)
    exact ⟨h, hmid, by rw [abs_of_nonpos (by linarith), abs_of_nonneg (by linarith)]; linarith⟩
  · obtain ⟨h, hmid, h1, h2⟩ := exists_midpoint_between hpos' hle hne
    exact ⟨h, hmid, by rw [abs_of_nonneg (by linarith), abs_of_nonpos (by linarith)]; linarith⟩

end Sys2Proof.Machine

/-! SUPPORT. Exact sums, products and quotients of H and S values lie in the range of R72 and clear of the midpoints
that binary64 does not have; the products, and the sums in H, are binary64 values (41_arith.md R72 to R74). -/

namespace Sys2Proof.Machine

/-- H and S against binary64 (R11): the fraction width and the exponent range. -/
theorem prec_bounds (F : Prec) :
    F.fmt.M ≤ 23 ∧ -149 ≤ emin F.fmt - F.fmt.M ∧ emax F.fmt ≤ 127 := by cases F <;> decide

/-- Any multiple of a spacing of binary64 with at most 53 bits is a binary64 magnitude. -/
theorem representable_D_of_le {k : ℤ} {n : ℕ} (hk : -1074 ≤ k) (hn : n ≤ 2 ^ 53) : Representable .D (n * pow2 k) := by
  have hD : emin .D = -1022 := rfl
  exact ⟨k + 52, n, by omega, hn, by congr 2; exact (add_sub_cancel_right k 52).symm⟩

/-- Two different multiples of powers of two are apart by the smaller power at least. -/
theorem pow2_min_le_abs_sub {j k : ℤ} {p q : ℤ} (h : (j : ℚ) * pow2 p ≠ k * pow2 q) :
    pow2 (min p q) ≤ |j * pow2 p - k * pow2 q| := by
  have hsplit : ∀ e : ℤ, min p q ≤ e → pow2 e = ((2 ^ (e - min p q).toNat : ℤ) : ℚ) * pow2 (min p q) := fun e he => by
    have : ((2 ^ (e - min p q).toNat : ℤ) : ℚ) = pow2 (e - min p q).toNat := by rw [pow2_natCast]; push_cast; rfl
    rw [this, ← pow2_add]; congr 1; omega
  have hp := pow2_pos (min p q)
  have hdiff : j * pow2 p - k * pow2 q =
      ((j * 2 ^ (p - min p q).toNat - k * 2 ^ (q - min p q).toNat : ℤ) : ℚ) * pow2 (min p q) := by
    rw [hsplit p (min_le_left ..), hsplit q (min_le_right ..)]; push_cast; ring
  rw [hdiff, abs_mul, abs_of_pos hp]
  refine le_mul_of_one_le_left hp.le ?_
  have hne : j * 2 ^ (p - min p q).toNat - k * 2 ^ (q - min p q).toNat ≠ 0 := fun h0 => by
    rw [h0, Int.cast_zero, zero_mul, sub_eq_zero] at hdiff; exact h hdiff
  exact_mod_cast Int.one_le_abs hne

/-- A midpoint is a number of at most M + 2 bits on a grid of half the spacing. -/
theorem Midpoint.grid_point {F : Format} {h : ℚ} (hh : Midpoint F h) :
    ∃ (t : ℤ) (j : ℕ), emin F - F.M - 1 ≤ t ∧ j < 2 ^ (F.M + 2) ∧ h = j * pow2 t := by
  obtain ⟨e, n, he, hn, -, rfl⟩ := hh
  exact ⟨e - F.M - 1, 2 * n + 1, by omega, by rw [pow_succ 2 (F.M + 1)]; omega, rfl⟩

/-- binary64 has the midpoints of H and of S. -/
theorem Midpoint.representable_D {F : Prec} {h : ℚ} (hh : Midpoint F.fmt h) : Representable .D h := by
  obtain ⟨hM, hmin, -⟩ := prec_bounds F
  obtain ⟨t, j, ht, hj, rfl⟩ := hh.grid_point
  exact representable_D_of_le (by omega) (hj.le.trans (Nat.pow_le_pow_right two_pos (by omega)))

/-- A normal magnitude of F is a quarter of its spacing or more away from every midpoint: the spacing below a power of
two is half of that above. -/
theorem Midpoint.abs_sub_ge {F : Format} {h : ℚ} (hh : Midpoint F h) {e : ℤ} {n : ℕ} (he : emin F < e)
    (hM : 2 ^ F.M ≤ n) (hn : n < 2 ^ (F.M + 1)) : pow2 (e - F.M - 2) ≤ |n * pow2 (e - F.M) - h| := by
  obtain ⟨c, k, hc, hk, hnorm, rfl⟩ := hh
  obtain hlow | hmid | hhigh : c + 1 < e ∨ (e - 1 ≤ c ∧ c ≤ e) ∨ e < c := by omega
  · -- the midpoint lies in a lower binade, two or more below
    have hk' : 2 * k + 1 ≤ 2 ^ (F.M + 2) := by rw [pow_succ 2 (F.M + 1)]; omega
    have hlt : ((2 * k + 1 : ℕ) : ℚ) * pow2 (c - F.M - 1) ≤ pow2 (e - 1) := by
      refine (mul_le_mul_of_nonneg_right (Nat.cast_le.2 hk') (pow2_pos _).le).trans ?_
      rw [← pow2_natCast, ← pow2_add]
      exact pow2_le_iff.2 (by push_cast; omega)
    have hge : pow2 e ≤ n * pow2 (e - F.M) := by
      refine le_trans (le_of_eq ?_) (mul_le_mul_of_nonneg_right (Nat.cast_le.2 hM) (pow2_pos _).le)
      rw [← pow2_natCast, ← pow2_add]; congr 1; ring
    have hquarter : pow2 (e - F.M - 2) ≤ pow2 (e - 1) := pow2_le_iff.2 (by omega)
    have hhalf := pow2_eq_two_mul_half e
    exact (le_abs_self _).trans' (by linarith)
  · -- the midpoint lies in the same binade or the one below: it is no multiple of the spacing there
    have hsep := pow2_min_le_abs_sub (j := n) (k := (2 * k + 1 : ℕ)) (p := e - F.M) (q := c - F.M - 1) fun heq => by
      have hone : pow2 (e - F.M) = ((2 ^ (e - c + 1).toNat : ℕ) : ℚ) * pow2 (c - F.M - 1) := by
        rw [← pow2_natCast, ← pow2_add]; congr 1; omega
      rw [hone, ← mul_assoc] at heq
      have hnat : n * 2 ^ (e - c + 1).toNat = 2 * k + 1 := by exact_mod_cast mul_right_cancel₀ (pow2_ne_zero _) heq
      have heven : 2 ∣ n * 2 ^ (e - c + 1).toNat := Dvd.dvd.mul_left (dvd_pow_self 2 (by omega)) n
      omega
    rw [min_eq_right (by omega)] at hsep
    have hquarter : pow2 (e - F.M - 2) ≤ pow2 (c - F.M - 1) := pow2_le_iff.2 (by omega)
    exact hquarter.trans (by exact_mod_cast hsep)
  · -- the midpoint lies in a higher binade, where it is normal
    have hkM : 2 ^ F.M ≤ k := hnorm.resolve_right (by omega)
    have hge : ((2 ^ (F.M + 1) + 1 : ℕ) : ℚ) * pow2 (e - F.M) ≤ (2 * k + 1 : ℕ) * pow2 (c - F.M - 1) :=
      mul_le_mul (Nat.cast_le.2 (by rw [pow_succ]; omega)) (pow2_le_iff.2 (by omega)) (pow2_pos _).le
        (Nat.cast_nonneg _)
    have hle : (n : ℚ) * pow2 (e - F.M) ≤ (2 ^ (F.M + 1) : ℕ) * pow2 (e - F.M) :=
      mul_le_mul_of_nonneg_right (Nat.cast_le.2 hn.le) (pow2_pos _).le
    have hquarter : pow2 (e - F.M - 2) ≤ pow2 (e - F.M) := pow2_le_iff.2 (by omega)
    push_cast at hge hle
    rw [abs_sub_comm]
    refine (le_abs_self _).trans' ?_
    push_cast
    linarith

/-- The value of a finite pattern as a signed integer on the grid of its binade. -/
theorem finite_signed_grid_point {F : Format} {x : Pattern F} (hx : isFinite x = true) :
    ∃ (e : ℤ) (j : ℤ), emin F ≤ e ∧ e ≤ emax F ∧ j.natAbs < 2 ^ (F.M + 1) ∧ (2 ^ F.M ≤ j.natAbs ∨ e = emin F) ∧
      val x = j * pow2 (e - F.M) := by
  obtain ⟨e, n, hlo, hhi, hn, hnorm, heq⟩ := finite_cases hx
  obtain ⟨-, -, hval, -⟩ := packGrid_spec F (sign x) e n hlo hhi hnorm hn
  rw [← heq] at hval
  cases hs : sign x with
  | false => exact ⟨e, n, hlo, hhi, hn, hnorm, by simp [hval, hs, signValue]⟩
  | true => exact ⟨e, -n, hlo, hhi, by simpa using hn, by simpa using hnorm, by simp [hval, hs, signValue]⟩

/-- Moving a normal value of H or S by a sixteenth of its spacing keeps it clear of the midpoints. -/
theorem Midpoint.lt_abs_sub_of_near {F : Prec} {h m : ℚ} (hh : Midpoint F.fmt h) {e : ℤ} {n : ℕ} (he : emin F.fmt < e)
    (hnorm : 2 ^ F.fmt.M ≤ n) (hn : n < 2 ^ (F.fmt.M + 1))
    (hnear : |n * pow2 (e - F.fmt.M) - m| ≤ pow2 (e - F.fmt.M - 4)) :
    m * pow2 (-53) < |m - h| := by
  obtain ⟨hM, -, -⟩ := prec_bounds F
  have hp := pow2_pos (e - F.fmt.M - 4)
  have hfar := hh.abs_sub_ge he hnorm hn
  have hquarter : pow2 (e - F.fmt.M - 2) = 4 * pow2 (e - F.fmt.M - 4) := by
    rw [show e - F.fmt.M - 2 = (e - F.fmt.M - 4) + 2 by ring, pow2_add, mul_comm]; rfl
  have hm : m ≤ pow2 (e + 2) := by
    have hz : (n : ℚ) * pow2 (e - F.fmt.M) ≤ pow2 (e + 1) := by
      refine (mul_le_mul_of_nonneg_right (Nat.cast_le.2 hn.le) (pow2_pos _).le).trans (le_of_eq ?_)
      rw [← pow2_natCast, ← pow2_add]; congr 1; push_cast; ring
    have h1 : pow2 (e - F.fmt.M - 4) ≤ pow2 (e + 1) := pow2_le_iff.2 (by omega)
    have h2 : pow2 (e + 2) = 2 * pow2 (e + 1) := by rw [pow2_eq_two_mul_half]; congr 2; ring
    have h3 := (abs_le.1 hnear).1
    linarith
  have herr : m * pow2 (-53) ≤ pow2 (e - F.fmt.M - 4) := by
    refine (mul_le_mul_of_nonneg_right hm (pow2_pos _).le).trans ?_
    rw [← pow2_add]
    exact pow2_le_iff.2 (by omega)
  have htri := abs_sub_le (n * pow2 (e - F.fmt.M)) m h
  linarith

/-- The magnitude of a sum on the grid of the smaller summand. -/
theorem abs_grid_sum {i j : ℤ} {p q : ℤ} (hqp : q ≤ p) :
    |i * pow2 p + j * pow2 q| = ((i * 2 ^ (p - q).toNat + j).natAbs : ℕ) * pow2 q := by
  have hshift : pow2 p = ((2 ^ (p - q).toNat : ℕ) : ℚ) * pow2 q := by
    rw [← pow2_natCast, ← pow2_add]; congr 1; omega
  have hsum : i * pow2 p + j * pow2 q = ((i * 2 ^ (p - q).toNat + j : ℤ) : ℚ) * pow2 q := by
    rw [hshift]; push_cast; ring
  rw [hsum, abs_mul, abs_of_pos (pow2_pos q), Nat.cast_natAbs, Int.cast_abs]

/-- A sum that needs more than 53 bits on the grid of the smaller summand has its summands 52 - M binades apart. -/
theorem le_shift_of_lt_natAbs {i j : ℤ} {M d : ℕ} (hM : M ≤ 23) (hi : i.natAbs < 2 ^ (M + 1))
    (hj : j.natAbs < 2 ^ (M + 1)) (hbits : 2 ^ 53 < (i * 2 ^ d + j).natAbs) : 52 - M ≤ d := by
  by_contra hlt
  have habs : (i * 2 ^ d + j).natAbs ≤ i.natAbs * 2 ^ d + j.natAbs := by
    refine (Int.natAbs_add_le _ _).trans (le_of_eq ?_)
    rw [Int.natAbs_mul, Int.natAbs_pow]; rfl
  have hprod : i.natAbs * 2 ^ d ≤ 2 ^ (M + 1) * 2 ^ (51 - M) :=
    Nat.mul_le_mul hi.le (Nat.pow_le_pow_right two_pos (by omega))
  have hpow : (2 : ℕ) ^ (M + 1) ≤ 2 ^ 24 := Nat.pow_le_pow_right two_pos (by omega)
  rw [← pow_add, show M + 1 + (51 - M) = 52 by omega] at hprod
  omega

/-- A sum of two values of H or S is clear of the midpoints: it has at most 53 bits, or the smaller summand is too small
to move the larger one near a midpoint (R74). -/
theorem clearOfMidpoints_add_of_le {F : Prec} {i j : ℤ} {c e : ℤ} (hc : emin F.fmt ≤ c) (hce : c ≤ e)
    (hi : i.natAbs < 2 ^ (F.fmt.M + 1)) (hj : j.natAbs < 2 ^ (F.fmt.M + 1))
    (hnorm : 2 ^ F.fmt.M ≤ i.natAbs ∨ e = emin F.fmt) :
    ClearOfMidpoints F.fmt |i * pow2 (e - F.fmt.M) + j * pow2 (c - F.fmt.M)| := by
  obtain ⟨hM, hmin, -⟩ := prec_bounds F
  intro h hmid herr
  have hgrid := abs_grid_sum (i := i) (j := j) (show c - F.fmt.M ≤ e - F.fmt.M by omega)
  rw [show e - F.fmt.M - (c - F.fmt.M) = e - c by ring] at hgrid
  obtain hbits | hbits := le_or_gt (i * 2 ^ (e - c).toNat + j).natAbs (2 ^ 53)
  · rw [hgrid]; exact representable_D_of_le (by omega) hbits
  · have hshift := le_shift_of_lt_natAbs hM hi hj hbits
    have hsmall : |(j : ℚ) * pow2 (c - F.fmt.M)| ≤ pow2 (e - F.fmt.M - 4) := by
      rw [abs_mul, abs_of_pos (pow2_pos _), ← Int.cast_abs, ← Nat.cast_natAbs]
      refine (mul_le_mul_of_nonneg_right (Nat.cast_le.2 hj.le) (pow2_pos _).le).trans ?_
      rw [← pow2_natCast, ← pow2_add]
      exact pow2_le_iff.2 (by push_cast; omega)
    have hlarge : |(i : ℚ) * pow2 (e - F.fmt.M)| = (i.natAbs : ℕ) * pow2 (e - F.fmt.M) := by
      rw [abs_mul, abs_of_pos (pow2_pos _), Nat.cast_natAbs, Int.cast_abs]
    have he : emin F.fmt < e := by omega
    refine absurd herr (not_le.2 (hmid.lt_abs_sub_of_near he (hnorm.resolve_right he.ne') hi ?_))
    rw [← hlarge]
    refine (abs_abs_sub_abs_le _ _).trans ?_
    rw [sub_add_cancel_left, abs_neg]
    exact hsmall

/-- A sum of values of H or S is clear of the midpoints. -/
theorem clearOfMidpoints_add {F : Prec} {a b : Pattern F.fmt} (ha : isFinite a = true) (hb : isFinite b = true) :
    ClearOfMidpoints F.fmt |val a + val b| := by
  obtain ⟨e, i, he, -, hi, hnorm, hva⟩ := finite_signed_grid_point ha
  obtain ⟨c, j, hc, -, hj, hnorm', hvb⟩ := finite_signed_grid_point hb
  rw [hva, hvb]
  obtain hle | hle := le_total c e
  · exact clearOfMidpoints_add_of_le hc hle hi hj hnorm
  · rw [add_comm]; exact clearOfMidpoints_add_of_le he hle hj hi hnorm'

/-- A number of 24 bits and one of 49, on any two grids, that agree within binary64's relative error are equal. -/
theorem eq_of_abs_sub_le {n l : ℕ} {p q : ℤ} (hn : n ≤ 2 ^ 24) (hl : l ≤ 2 ^ 49)
    (h : |n * pow2 p - l * pow2 q| ≤ n * pow2 p * pow2 (-53)) : (n : ℚ) * pow2 p = l * pow2 q := by
  by_contra hne
  have hsep : pow2 (min p q) ≤ |n * pow2 p - l * pow2 q| := by
    exact_mod_cast pow2_min_le_abs_sub (j := n) (k := l) (p := p) (q := q) (by exact_mod_cast hne)
  rw [show pow2 (-53) = 1 / 2 ^ 53 by rw [pow2_eq_zpow]; norm_num] at h
  have hp := pow2_pos p
  have hq := pow2_pos q
  obtain hle | hle := le_total p q
  · have hn' := mul_le_mul_of_nonneg_right (show (n : ℚ) ≤ 2 ^ 24 by exact_mod_cast hn) hp.le
    rw [min_eq_left hle] at hsep
    linarith
  · have hl' := mul_le_mul_of_nonneg_right (show (l : ℚ) ≤ 2 ^ 49 by exact_mod_cast hl) hq.le
    have hup := (abs_le.1 h).2
    rw [min_eq_right hle] at hsep
    linarith

/-- A quotient of values of H or S is clear of the midpoints: the dividend has 24 bits, and a midpoint times the divisor
49, so they are equal or apart by more than the relative error of binary64 (R74). -/
theorem clearOfMidpoints_div {F : Prec} {a b : Pattern F.fmt} (ha : isFinite a = true) (hb : isFinite b = true)
    (zb : isZero b = false) : ClearOfMidpoints F.fmt |val a / val b| := by
  obtain ⟨hM, -, -⟩ := prec_bounds F
  obtain ⟨e, n, -, -, hn, hva⟩ := finite_grid_point ha
  obtain ⟨c, k, -, -, hk, hvb⟩ := finite_grid_point hb
  have hpos := val_abs_pos hb zb
  intro h hmid herr
  suffices heq : |val a / val b| = h from heq ▸ hmid.representable_D
  obtain ⟨t, j, -, hj, hh⟩ := hmid.grid_point
  have hprod : h * |val b| = (k * j : ℕ) * pow2 (c - F.fmt.M + t) := by
    rw [hh, hvb, pow2_add]; push_cast; ring
  have hbits : ∀ i, 2 ^ (F.fmt.M + i) ≤ 2 ^ (23 + i) := fun i => Nat.pow_le_pow_right two_pos (by omega)
  rw [abs_div] at herr ⊢
  -- the inequality, multiplied by the divisor
  have hclose := mul_le_mul_of_nonneg_right herr hpos.le
  rw [← abs_of_pos hpos, ← abs_mul, abs_of_pos hpos, sub_mul, mul_right_comm, div_mul_cancel₀ _ hpos.ne', hprod, hva]
    at hclose
  rw [div_eq_iff hpos.ne', hprod, hva]
  refine eq_of_abs_sub_le (hn.le.trans (hbits 1)) ?_ hclose
  calc k * j ≤ 2 ^ 24 * 2 ^ 25 := Nat.mul_le_mul (hk.le.trans (hbits 1)) (hj.le.trans (hbits 2))
    _ = 2 ^ 49 := by norm_num

/-- Products of values of H or S have at most 48 bits, and are values of binary64 (R73). -/
theorem representable_mul {F : Prec} {a b : Pattern F.fmt} (ha : isFinite a = true) (hb : isFinite b = true) :
    Representable .D |val a * val b| := by
  obtain ⟨hM, hmin, -⟩ := prec_bounds F
  obtain ⟨e, n, he, -, hn, hva⟩ := finite_grid_point ha
  obtain ⟨c, k, hc, -, hk, hvb⟩ := finite_grid_point hb
  have hprod : |val a * val b| = (n * k : ℕ) * pow2 (e - F.fmt.M + (c - F.fmt.M)) := by
    rw [abs_mul, hva, hvb, pow2_add]; push_cast; ring
  have hbits : n * k ≤ 2 ^ (F.fmt.M + 1) * 2 ^ (F.fmt.M + 1) := Nat.mul_le_mul hn.le hk.le
  rw [← pow_add] at hbits
  rw [hprod]
  exact representable_D_of_le (by omega) (hbits.trans (Nat.pow_le_pow_right two_pos (by omega)))

/-- Sums of values of H are multiples of 2^-24 below 2^17, and are values of binary64 (R73). -/
theorem representable_add_half {a b : Pattern .H} (ha : isFinite a = true) (hb : isFinite b = true) :
    Representable .D |val a + val b| := by
  obtain ⟨hra, -, hlta, -⟩ := finite_val ha
  obtain ⟨hrb, -, hltb, -⟩ := finite_val hb
  obtain ⟨i, hi⟩ := multiple_of_representable hra
  obtain ⟨j, hj⟩ := multiple_of_representable hrb
  have hp := pow2_pos (emin .H - Format.H.M)
  have hsum : |val a + val b| = ((i + j).natAbs : ℕ) * pow2 (emin .H - Format.H.M) := by
    rw [hi, hj, ← add_mul, abs_mul, abs_of_pos hp, Nat.cast_natAbs, Int.cast_abs, Int.cast_add]
  have hbits : (i + j).natAbs ≤ 2 ^ 53 := by
    have hlt : (((i + j).natAbs : ℕ) : ℚ) * pow2 (emin .H - Format.H.M) <
        (2 ^ 41 : ℕ) * pow2 (emin .H - Format.H.M) := by
      rw [← hsum, ← pow2_natCast, ← pow2_add]
      refine ((abs_add_le _ _).trans_lt (add_lt_add hlta hltb)).trans_eq ?_
      rw [show ((41 : ℕ) : ℤ) + (emin .H - Format.H.M) = emax .H + 1 + 1 from rfl,
        pow2_eq_two_mul_half (emax .H + 1 + 1), add_sub_cancel_right, two_mul]
    have : (i + j).natAbs < 2 ^ 41 := by exact_mod_cast lt_of_mul_lt_mul_right hlt hp.le
    omega
  rw [hsum]
  exact representable_D_of_le (by decide) hbits

end Sys2Proof.Machine

/-! SUPPORT. The range of the exact results, the binary64 result of each operation on finite operands, and the single
rounding of the exact result that Arith comes to (41_arith.md R63, R72 to R74). -/

namespace Sys2Proof.Machine

theorem val_ne_zero {F : Format} {x : Pattern F} (hx : isFinite x = true) (hz : isZero x = false) : val x ≠ 0 :=
  abs_pos.1 (val_abs_pos hx hz)

theorem isZero_eq_false_of_val_ne_zero {F : Format} {x : Pattern F} (h : val x ≠ 0) : isZero x = false :=
  Bool.eq_false_iff.2 fun hz => h (val_of_isZero hz)

/-- The magnitudes of H and S lie in the range of S (R11). -/
theorem abs_val_lt {F : Prec} {x : Pattern F.fmt} (hx : isFinite x = true) : |val x| < pow2 128 := by
  obtain ⟨-, -, hmax⟩ := prec_bounds F
  obtain ⟨-, -, hlt, -⟩ := finite_val hx
  exact hlt.trans_le (pow2_le_iff.2 (by omega))

theorem le_abs_val {F : Prec} {x : Pattern F.fmt} (hx : isFinite x = true) (hz : isZero x = false) :
    pow2 (-149) ≤ |val x| := by
  obtain ⟨-, hmin, -⟩ := prec_bounds F
  exact (pow2_le_iff.2 hmin).trans (abs_val_bounds hx hz).1

theorem abs_add_lt {F : Prec} {a b : Pattern F.fmt} (ha : isFinite a = true) (hb : isFinite b = true) :
    |val a + val b| < pow2 129 :=
  calc |val a + val b| ≤ |val a| + |val b| := abs_add_le _ _
    _ < pow2 128 + pow2 128 := add_lt_add (abs_val_lt ha) (abs_val_lt hb)
    _ = pow2 129 := by rw [pow2_eq_two_mul_half 129, two_mul]; rfl

/-- A nonzero sum is at least the spacing both summands are multiples of. -/
theorem le_abs_add {F : Prec} {a b : Pattern F.fmt} (ha : isFinite a = true) (hb : isFinite b = true)
    (h : val a + val b ≠ 0) : pow2 (-149) ≤ |val a + val b| := by
  obtain ⟨-, hmin, -⟩ := prec_bounds F
  obtain ⟨i, hi⟩ := multiple_of_representable (finite_val ha).1
  obtain ⟨j, hj⟩ := multiple_of_representable (finite_val hb).1
  have hp := pow2_pos (emin F.fmt - F.fmt.M)
  rw [hi, hj, ← add_mul, ← Int.cast_add] at h ⊢
  have hne : i + j ≠ 0 := by exact_mod_cast left_ne_zero_of_mul h
  rw [abs_mul, abs_of_pos hp]
  exact (pow2_le_iff.2 hmin).trans (le_mul_of_one_le_left hp.le (by exact_mod_cast Int.one_le_abs hne))

theorem abs_mul_lt {F : Prec} {a b : Pattern F.fmt} (ha : isFinite a = true) (hb : isFinite b = true) :
    |val a * val b| < pow2 256 := by
  rw [abs_mul, show (256 : ℤ) = 128 + 128 from rfl, pow2_add]
  exact mul_lt_mul'' (abs_val_lt ha) (abs_val_lt hb) (abs_nonneg _) (abs_nonneg _)

theorem le_abs_mul {F : Prec} {a b : Pattern F.fmt} (ha : isFinite a = true) (hb : isFinite b = true)
    (za : isZero a = false) (zb : isZero b = false) : pow2 (-298) ≤ |val a * val b| := by
  rw [abs_mul, show (-298 : ℤ) = -149 + -149 from rfl, pow2_add]
  exact mul_le_mul (le_abs_val ha za) (le_abs_val hb zb) (pow2_pos _).le (abs_nonneg _)

theorem abs_div_le {F : Prec} {a b : Pattern F.fmt} (ha : isFinite a = true) (hb : isFinite b = true)
    (zb : isZero b = false) : |val a / val b| ≤ pow2 277 := by
  rw [abs_div, div_le_iff₀ (val_abs_pos hb zb)]
  calc |val a| ≤ pow2 (277 + -149) := (abs_val_lt ha).le
    _ = pow2 277 * pow2 (-149) := pow2_add ..
    _ ≤ pow2 277 * |val b| := mul_le_mul_of_nonneg_left (le_abs_val hb zb) (pow2_pos _).le

theorem le_abs_div {F : Prec} {a b : Pattern F.fmt} (ha : isFinite a = true) (hb : isFinite b = true)
    (za : isZero a = false) (zb : isZero b = false) : pow2 (-277) ≤ |val a / val b| := by
  rw [abs_div, le_div_iff₀ (val_abs_pos hb zb)]
  calc pow2 (-277) * |val b| ≤ pow2 (-277) * pow2 128 := mul_le_mul_of_nonneg_left (abs_val_lt hb).le (pow2_pos _).le
    _ = pow2 (-277 + 128) := (pow2_add ..).symm
    _ ≤ |val a| := le_abs_val ha za

/-- Within binary64's range of normal numbers, RoundToFormat gives a normal number of the rounded magnitude. -/
theorem roundToFormat_D_normal (s : Bool) {m : ℚ} (hlo : pow2 (emin .D) ≤ m) (hhi : m ≤ pow2 (emax .D)) :
    isNormal (roundToFormat .D s m) = true ∧ sign (roundToFormat .D s m) = s ∧
      val (roundToFormat .D s m) = signValue s * rounded .D m := by
  have hm := (pow2_pos _).trans_le hlo
  have hle := rounded_le hm (representable_pow2 .D (emin_le_emax .D)) hhi
  have hge := le_rounded hm (representable_pow2 .D le_rfl) hlo
  obtain ⟨hover, -⟩ | ⟨-, -, hsign, hval, -, -, hnormal⟩ := roundToFormat_cases .D s hm
  · exact absurd (hover.trans hle) (not_le.2 (pow2_lt_iff.2 (by omega)))
  · exact ⟨hnormal hge, hsign, hval⟩

/-- RoundToFormat depends on the rounded magnitude alone. -/
theorem roundToFormat_congr {F : Format} (s : Bool) {m m' : ℚ} (hm : 0 < m) (hm' : 0 < m')
    (h : rounded F m = rounded F m') : roundToFormat F s m = roundToFormat F s m' := by
  obtain ⟨hover, hr⟩ | ⟨hlt, hfin, hsign, hval, -⟩ := roundToFormat_cases F s hm <;>
  obtain ⟨hover', hr'⟩ | ⟨hlt', hfin', hsign', hval', -⟩ := roundToFormat_cases F s hm'
  · rw [hr, hr']
  · exact absurd (h ▸ hover) (not_le.2 hlt')
  · exact absurd (h ▸ hover') (not_le.2 hlt)
  · exact finite_ext hfin hfin' (hsign.trans hsign'.symm) (by rw [hval, hval', h])

/-- A sign bit and a magnitude make up their rational. -/
theorem signValue_decide_mul_abs (v : ℚ) : signValue (decide (v < 0)) * |v| = v := by
  obtain h | h := lt_or_ge v 0
  · simp [h, signValue, abs_of_neg h]
  · simp [not_lt.2 h, signValue, abs_of_nonneg h]

/-- ConvertD of a binary64 rounding, for a magnitude in the range of R72 and clear of the midpoints, is one rounding. -/
theorem convertD_roundToFormat (P : NaNPolicy) (F : Prec) (s : Bool) {m : ℚ} (hlo : pow2 (-298) ≤ m)
    (hhi : m ≤ pow2 277) (hclear : ClearOfMidpoints F.fmt m) :
    convertD P F (roundToFormat .D s m) = roundToFormat F.fmt s m := by
  have hmin : pow2 (emin .D) ≤ m := (pow2_le_iff.2 (by decide)).trans hlo
  have hmax : m ≤ pow2 (emax .D) := hhi.trans (pow2_le_iff.2 (by decide))
  have hm := (pow2_pos _).trans_le hlo
  have hpos := (pow2_pos _).trans_le (le_rounded hm (representable_pow2 .D le_rfl) hmin)
  obtain ⟨hnormal, hsign, hval⟩ := roundToFormat_D_normal s hmin hmax
  have habs : |val (roundToFormat .D s m)| = rounded .D m := by rw [hval, abs_signValue_mul, abs_of_pos hpos]
  rw [convertD_finite P F (isFinite_of_isNormal hnormal) (isZero_eq_false_of_abs_val_pos (habs ▸ hpos)), hsign, habs]
  exact roundToFormat_congr s hpos hm (rounded_rounded_D hmin hclear)

/-- Widen on every finite pattern (R21). -/
theorem widen_of_finite (P : NaNPolicy) (F : Prec) {x : Pattern F.fmt} (hx : isFinite x = true) :
    isFinite (widen P F x) = true ∧ val (widen P F x) = val x ∧ sign (widen P F x) = sign x ∧
      isZero (widen P F x) = isZero x :=
  (widenIsExact P F x).1 hx

/-- Widen makes no NaN of its own (R21). -/
theorem isNaN_widen (P : NaNPolicy) (F : Prec) {x : Pattern F.fmt} (h : isNaN x = false) :
    isNaN (widen P F x) = false := by
  obtain hnan | hinf | hfin := class_cases F.fmt x
  · simp [h] at hnan
  · rw [widen_inf P F hinf, isNaN_inf]
  · exact (not_nan_inf_of_finite (widen_of_finite P F hfin).1).1

/-- Widen keeps the sign of a pattern that is not a NaN, and takes zeros alone to zeros (R21). -/
theorem sign_widen (P : NaNPolicy) (F : Prec) {x : Pattern F.fmt} (h : isNaN x = false) :
    sign (widen P F x) = sign x ∧ isZero (widen P F x) = isZero x := by
  obtain hnan | hinf | hfin := class_cases F.fmt x
  · simp [h] at hnan
  · obtain ⟨-, -, hz⟩ := not_nan_finite_zero_of_inf hinf
    rw [widen_inf P F hinf, sign_inf, isZero_inf, hz]
    exact ⟨rfl, rfl⟩
  · obtain ⟨-, -, hs, hz⟩ := widen_of_finite P F hfin
    exact ⟨hs, hz⟩

/-- Widen takes the negation of a pattern that is not a NaN to the negation of its result. -/
theorem widen_neg (P : NaNPolicy) (F : Prec) {x : Pattern F.fmt} (h : isNaN x = false) :
    widen P F (neg x) = neg (widen P F x) := by
  obtain hnan | hinf | hfin := class_cases F.fmt x
  · simp [h] at hnan
  · rw [widen_inf P F hinf, widen_inf P F ((isInf_neg x).trans hinf), neg_of_inf, sign_neg]
  · cases hz : isZero x with
    | true => rw [widen_zero P F hz, widen_zero P F ((isZero_neg x).trans hz), neg_of_zero, sign_neg]
    | false =>
      obtain ⟨hf, hv, hs, -⟩ := widen_of_finite P F hfin
      obtain ⟨hf', hv', hs', -⟩ := widen_of_finite P F ((isFinite_neg x).trans hfin)
      exact finite_ext hf' ((isFinite_neg _).trans hf) (by rw [hs', sign_neg, sign_neg, hs])
        (by rw [hv', val_neg, val_neg, hv])

/-- SUB64 of widened operands that are not NaN is ADD64 with the subtrahend negated before it is widened (R66). -/
theorem sub64_widen (P : NaNPolicy) (F : Prec) {a b : Pattern F.fmt} (ha : isNaN a = false) (hb : isNaN b = false) :
    sub64 P (widen P F a) (widen P F b) = add64 P (widen P F a) (widen P F (neg b)) := by
  rw [sub64_eq P (isNaN_widen P F ha) (isNaN_widen P F hb), widen_neg P F hb]

theorem sub_eq_add_val_neg {F : Format} (a b : Pattern F) : val a - val b = val a + val (neg b) := by
  rw [val_neg, sub_eq_add_neg]

/-- SUB of patterns that are not NaN is ADD of the first and the negated second (R66). -/
theorem arith_sub_eq_arith_add_neg (P : NaNPolicy) (F : Prec) {a b : Pattern F.fmt} (ha : isNaN a = false)
    (hb : isNaN b = false) : arith P .sub F a b = arith P .add F a (neg b) := by
  rw [arith, arith, op64, op64, sub64_widen P F ha hb]

/-- ADD of finite operands with a nonzero exact sum rounds it once (R74). -/
theorem arith_add_finite (P : NaNPolicy) (F : Prec) {a b : Pattern F.fmt} (ha : isFinite a = true)
    (hb : isFinite b = true) (h : val a + val b ≠ 0) :
    arith P .add F a b = roundToFormat F.fmt (decide (val a + val b < 0)) |val a + val b| := by
  obtain ⟨hfa, hva, -⟩ := widen_of_finite P F ha
  obtain ⟨hfb, hvb, -⟩ := widen_of_finite P F hb
  simp only [arith, op64]
  rw [add64_finite P hfa hfb (by rwa [hva, hvb]), hva, hvb]
  exact convertD_roundToFormat P F _ ((pow2_le_iff.2 (by decide)).trans (le_abs_add ha hb h))
    ((abs_add_lt ha hb).le.trans (pow2_le_iff.2 (by decide))) (clearOfMidpoints_add ha hb)

/-- SUB of finite operands with a nonzero exact difference rounds it once (R74). -/
theorem arith_sub_finite (P : NaNPolicy) (F : Prec) {a b : Pattern F.fmt} (ha : isFinite a = true)
    (hb : isFinite b = true) (h : val a - val b ≠ 0) :
    arith P .sub F a b = roundToFormat F.fmt (decide (val a - val b < 0)) |val a - val b| := by
  rw [sub_eq_add_val_neg] at h ⊢
  rw [arith_sub_eq_arith_add_neg P F (not_nan_inf_of_finite ha).1 (not_nan_inf_of_finite hb).1]
  exact arith_add_finite P F ha ((isFinite_neg b).trans hb) h

/-- MUL of finite nonzero operands rounds the exact product once (R74). -/
theorem arith_mul_finite (P : NaNPolicy) (F : Prec) {a b : Pattern F.fmt} (ha : isFinite a = true)
    (hb : isFinite b = true) (za : isZero a = false) (zb : isZero b = false) :
    arith P .mul F a b = roundToFormat F.fmt (sign a ^^ sign b) |val a * val b| := by
  obtain ⟨hfa, hva, hsa, hza⟩ := widen_of_finite P F ha
  obtain ⟨hfb, hvb, hsb, hzb⟩ := widen_of_finite P F hb
  simp only [arith, op64]
  rw [mul64_finite P hfa hfb (hza.trans za) (hzb.trans zb), hva, hvb, hsa, hsb]
  exact convertD_roundToFormat P F _ (le_abs_mul ha hb za zb)
    ((abs_mul_lt ha hb).le.trans (pow2_le_iff.2 (by decide))) fun _ _ _ => representable_mul ha hb

/-- DIV of finite nonzero operands rounds the exact quotient once (R74). -/
theorem arith_div_finite (P : NaNPolicy) (F : Prec) {a b : Pattern F.fmt} (ha : isFinite a = true)
    (hb : isFinite b = true) (za : isZero a = false) (zb : isZero b = false) :
    arith P .div F a b = roundToFormat F.fmt (sign a ^^ sign b) |val a / val b| := by
  obtain ⟨hfa, hva, hsa, hza⟩ := widen_of_finite P F ha
  obtain ⟨hfb, hvb, hsb, hzb⟩ := widen_of_finite P F hb
  simp only [arith, op64]
  rw [div64_finite P hfa hfb (hza.trans za) (hzb.trans zb), hva, hvb, hsa, hsb]
  exact convertD_roundToFormat P F _ ((pow2_le_iff.2 (by decide)).trans (le_abs_div ha hb za zb))
    (abs_div_le ha hb zb) (clearOfMidpoints_div ha hb zb)

/-- Settles O48: the exact result lies in binary64's range and clear of the midpoints, so the first rounding does not
change the second. -/
theorem doubleRoundingIsInnocuous : Obligations.DoubleRoundingIsInnocuous := by
  unfold Obligations.DoubleRoundingIsInnocuous
  intro P F a b ha hb
  refine ⟨arith_add_finite P F ha hb, arith_sub_finite P F ha hb, fun h => ?_, fun h => ?_⟩
  · exact arith_mul_finite P F ha hb (isZero_eq_false_of_val_ne_zero (left_ne_zero_of_mul h))
      (isZero_eq_false_of_val_ne_zero (right_ne_zero_of_mul h))
  · obtain ⟨hna, hnb⟩ := div_ne_zero_iff.1 h
    exact arith_div_finite P F ha hb (isZero_eq_false_of_val_ne_zero hna) (isZero_eq_false_of_val_ne_zero hnb)

end Sys2Proof.Machine

/-! SUPPORT. The corner cases of ADD, SUB, MUL and DIV that name no NaN, and the order of the operands (41_arith.md R65,
R67, R69, R71, R75). -/

namespace Sys2Proof.Machine

/-! ### The binary64 operations on infinities and zeros, and on a pattern and its negation -/

/-- ADD64 of an infinity and a finite pattern, and of two equal infinities (R64). -/
theorem add64_inf_left (P : NaNPolicy) (s : Bool) {y : Pattern .D} (hy : isFinite y = true) :
    add64 P (inf .D s) y = inf .D s := by simp [add64, not_nan_inf_of_finite hy]

theorem add64_inf_self (P : NaNPolicy) (s : Bool) : add64 P (inf .D s) (inf .D s) = inf .D s := by simp [add64]

theorem add64_zeros (P : NaNPolicy) (s s' : Bool) : add64 P (zero .D s) (zero .D s') = zero .D (s && s') := by
  simp [add64]

/-- Exact cancellation of a nonzero pattern gives +0 (R64). -/
theorem add64_cancel (P : NaNPolicy) {x y : Pattern .D} (hx : isFinite x = true) (hy : isFinite y = true)
    (hz : isZero x = false) (h : val x + val y = 0) : add64 P x y = zero .D false := by
  simp [add64, not_nan_inf_of_finite hx, not_nan_inf_of_finite hy, hz, h]

/-- ADD64 is symmetric on patterns that are not NaN (R64, R75). -/
theorem add64_comm (P : NaNPolicy) {x y : Pattern .D} (hx : isNaN x = false) (hy : isNaN y = false) :
    add64 P x y = add64 P y x := by
  simp only [add64, hx, hy, Bool.or_self, Bool.false_eq_true, if_false, Bool.and_comm (isInf y),
    Bool.and_comm (isZero y), Bool.and_comm (sign y), add_comm (val y), bne_comm (a := sign y)]
  -- what is left names the operands in order: two infinities, equal where they are returned
  cases ix : isInf x with
  | false => simp
  | true =>
    cases iy : isInf y with
    | false => simp
    | true =>
      rw [eq_inf_of_isInf ix, eq_inf_of_isInf iy, sign_inf, sign_inf]
      by_cases hs : sign x = sign y <;> simp [hs]

/-- MUL64 is symmetric on patterns that are not NaN (R68, R75). -/
theorem mul64_comm (P : NaNPolicy) {x y : Pattern .D} (hx : isNaN x = false) (hy : isNaN y = false) :
    mul64 P x y = mul64 P y x := by
  simp only [mul64, hx, hy, Bool.or_self, Bool.false_eq_true, if_false, Bool.and_comm (isInf y),
    Bool.and_comm (isZero y), Bool.or_comm (isInf y), Bool.or_comm (isZero y), Bool.xor_comm (sign y), mul_comm (val y)]
  rw [Bool.or_comm (isZero x && isInf y)]

/-- MUL64 of an infinity and a pattern that is neither a NaN nor a zero (R68). -/
theorem mul64_inf_left (P : NaNPolicy) (s : Bool) {y : Pattern .D} (hy : isNaN y = false) (hz : isZero y = false) :
    mul64 P (inf .D s) y = inf .D (s ^^ sign y) := by simp [mul64, hy, hz]

/-- DIV64 of an infinity by a finite pattern (R70). -/
theorem div64_inf_left (P : NaNPolicy) (s : Bool) {y : Pattern .D} (hy : isFinite y = true) :
    div64 P (inf .D s) y = inf .D (s ^^ sign y) := by simp [div64, not_nan_inf_of_finite hy]

/-- DIV64 of a finite pattern by an infinity (R70). -/
theorem div64_inf_right (P : NaNPolicy) (s : Bool) {x : Pattern .D} (hx : isFinite x = true) :
    div64 P x (inf .D s) = zero .D (sign x ^^ s) := by simp [div64, not_nan_inf_of_finite hx]

/-- DIV64 of a finite nonzero pattern by a zero (R70). -/
theorem div64_by_zero (P : NaNPolicy) (s : Bool) {x : Pattern .D} (hx : isFinite x = true) (hz : isZero x = false) :
    div64 P x (zero .D s) = inf .D (sign x ^^ s) := by simp [div64, not_nan_inf_of_finite hx, hz]

@[simp] theorem widen_of_inf (P : NaNPolicy) (F : Prec) (s : Bool) : widen P F (inf F.fmt s) = inf .D s := by
  rw [widen_inf P F (isInf_inf ..), sign_inf]

@[simp] theorem widen_of_zero (P : NaNPolicy) (F : Prec) (s : Bool) : widen P F (zero F.fmt s) = zero .D s := by
  rw [widen_zero P F (isZero_zero ..), sign_zero]

@[simp] theorem convertD_of_inf (P : NaNPolicy) (F : Prec) (s : Bool) : convertD P F (inf .D s) = inf F.fmt s := by
  rw [convertD_inf P F (isInf_inf ..), sign_inf]

@[simp] theorem convertD_of_zero (P : NaNPolicy) (F : Prec) (s : Bool) : convertD P F (zero .D s) = zero F.fmt s := by
  rw [convertD_zero P F (isZero_zero ..), sign_zero]

/-! ### ADD and SUB -/

/-- ADD is commutative on patterns that are not NaN (R75). -/
theorem arith_add_comm (P : NaNPolicy) (F : Prec) {a b : Pattern F.fmt} (ha : isNaN a = false) (hb : isNaN b = false) :
    arith P .add F a b = arith P .add F b a := by
  simp only [arith, op64, add64_comm P (isNaN_widen P F ha) (isNaN_widen P F hb)]

theorem arith_add_inf_left (P : NaNPolicy) (F : Prec) (s : Bool) {b : Pattern F.fmt} (hb : isFinite b = true) :
    arith P .add F (inf F.fmt s) b = inf F.fmt s := by
  simp [arith, op64, add64_inf_left P s (widen_of_finite P F hb).1]

theorem arith_add_inf_right (P : NaNPolicy) (F : Prec) (s : Bool) {b : Pattern F.fmt} (hb : isFinite b = true) :
    arith P .add F b (inf F.fmt s) = inf F.fmt s :=
  (arith_add_comm P F (not_nan_inf_of_finite hb).1 (isNaN_inf ..)).trans (arith_add_inf_left P F s hb)

theorem arith_add_inf_self (P : NaNPolicy) (F : Prec) (s : Bool) :
    arith P .add F (inf F.fmt s) (inf F.fmt s) = inf F.fmt s := by simp [arith, op64, add64_inf_self]

theorem arith_add_zeros (P : NaNPolicy) (F : Prec) (s s' : Bool) :
    arith P .add F (zero F.fmt s) (zero F.fmt s') = zero F.fmt (s && s') := by simp [arith, op64, add64_zeros]

/-- A nonzero pattern and its negation sum to +0 (R65). -/
theorem arith_add_neg (P : NaNPolicy) (F : Prec) {a : Pattern F.fmt} (ha : isFinite a = true) (hz : isZero a = false) :
    arith P .add F a (neg a) = zero F.fmt false := by
  obtain ⟨hfa, -, -, hza⟩ := widen_of_finite P F ha
  simp only [arith, op64]
  rw [widen_neg P F (not_nan_inf_of_finite ha).1,
    add64_cancel P hfa ((isFinite_neg _).trans hfa) (hza.trans hz) (by rw [val_neg, add_neg_cancel]), convertD_of_zero]

/-- The sign bit of a finite nonzero pattern is the sign of its value (R14). -/
theorem decide_val_neg {F : Format} {x : Pattern F} (hx : isFinite x = true) (hz : isZero x = false) :
    decide (val x < 0) = sign x := by
  have hpos := val_abs_pos hx hz
  obtain ⟨-, hval, -⟩ := finite_val hx
  rw [hval]
  cases sign x with
  | false => simp [signValue]
  | true => simpa [signValue] using abs_pos.1 hpos

/-- Adding a zero of either sign leaves a nonzero pattern (R65). -/
theorem arith_add_zero (P : NaNPolicy) (F : Prec) (s : Bool) {a : Pattern F.fmt} (ha : isFinite a = true)
    (hz : isZero a = false) : arith P .add F a (zero F.fmt s) = a := by
  have hsum : val a + val (zero F.fmt s) = val a := by rw [val_of_isZero (isZero_zero ..), add_zero]
  rw [arith_add_finite P F ha (isFinite_zero ..) (hsum.trans_ne (val_ne_zero ha hz)), hsum, decide_val_neg ha hz]
  exact formatValuesRoundToThemselves F.fmt a ha hz

/-- A magnitude from the overflow threshold on is not that of 0 (R18). -/
theorem ne_zero_of_threshold_le {F : Format} {v : ℚ} (h : (2 - pow2 (-precision F)) * pow2 (emax F) ≤ |v|) : v ≠ 0 :=
  abs_pos.1 ((overflow_threshold_pos F).trans_le h)

/-- A nonzero sum below 2^emin is a value of the format, and no rounding changes it (R65, R73). -/
theorem arith_add_tiny (P : NaNPolicy) (F : Prec) {a b : Pattern F.fmt} (ha : isFinite a = true)
    (hb : isFinite b = true) (hne : val a + val b ≠ 0) (hlt : |val a + val b| < pow2 (emin F.fmt)) :
    isSub (arith P .add F a b) = true ∧ val (arith P .add F a b) = val a + val b := by
  rw [arith_add_finite P F ha hb hne]
  have hpos := abs_pos.2 hne
  have hself := rounded_eq_self hpos (representable_add (finite_val ha).1 (finite_val hb).1 hlt)
  obtain ⟨hover, -⟩ | ⟨-, hfin, -, hval, hzero, -⟩ :=
    roundToFormat_cases F.fmt (decide (val a + val b < 0)) hpos
  · have hlarge : pow2 (emin F.fmt) ≤ pow2 (emax F.fmt + 1) := pow2_le_iff.2 (by have := emin_le_emax F.fmt; omega)
    exact absurd (hself ▸ hover) (not_le.2 (hlt.trans_le hlarge))
  · rw [hself] at hval hzero
    have hnz := Bool.eq_false_iff.2 fun h => hpos.ne' (hzero.1 h)
    refine ⟨(isSub_iff_lt_emin hfin hnz).2 ?_, hval.trans ?_⟩
    · rwa [hval, abs_signValue_mul, abs_abs]
    · exact signValue_decide_mul_abs _

/-- Settles O42, row by row; the last two rows by the single rounding of the exact sum. -/
theorem additionCornerCases : Obligations.AdditionCornerCases := by
  unfold Obligations.AdditionCornerCases
  intro P F a b s
  refine ⟨fun hb => ⟨arith_add_inf_left P F s hb, arith_add_inf_right P F s hb⟩, arith_add_inf_self P F s,
    arith_add_zeros P F s, arith_add_neg P F, fun ha hz => ⟨arith_add_zero P F s ha hz, ?_⟩, fun ha hb h => ?_,
    arith_add_tiny P F⟩
  · rw [arith_add_comm P F (isNaN_zero ..) (not_nan_inf_of_finite ha).1, arith_add_zero P F s ha hz]
  · have hne := ne_zero_of_threshold_le h
    rw [arith_add_finite P F ha hb hne]
    exact (roundToFormat_eq_inf_iff F.fmt _ (abs_pos.2 hne)).1.2 h

/-- A finite pattern minus itself is +0 (R66). -/
theorem arith_sub_self (P : NaNPolicy) (F : Prec) {a : Pattern F.fmt} (ha : isFinite a = true) :
    arith P .sub F a a = zero F.fmt false := by
  have hn := (not_nan_inf_of_finite ha).1
  rw [arith_sub_eq_arith_add_neg P F hn hn]
  cases hz : isZero a with
  | true => rw [eq_zero_of_isZero hz, neg_of_zero, arith_add_zeros, Bool.and_not_self]
  | false => exact arith_add_neg P F ha hz

theorem arith_sub_inf_left (P : NaNPolicy) (F : Prec) (s : Bool) {b : Pattern F.fmt} (hb : isFinite b = true) :
    arith P .sub F (inf F.fmt s) b = inf F.fmt s := by
  rw [arith_sub_eq_arith_add_neg P F (isNaN_inf ..) (not_nan_inf_of_finite hb).1]
  exact arith_add_inf_left P F s ((isFinite_neg b).trans hb)

theorem arith_sub_inf_right (P : NaNPolicy) (F : Prec) (s : Bool) {b : Pattern F.fmt} (hb : isFinite b = true) :
    arith P .sub F b (inf F.fmt s) = inf F.fmt (!s) := by
  rw [arith_sub_eq_arith_add_neg P F (not_nan_inf_of_finite hb).1 (isNaN_inf ..), neg_of_inf]
  exact arith_add_inf_right P F (!s) hb

/-- Settles O43: each row is ADD's with the subtrahend negated. -/
theorem subtractionCornerCases : Obligations.SubtractionCornerCases := by
  unfold Obligations.SubtractionCornerCases
  intro P F a b s
  refine ⟨?_, fun hb => ⟨arith_sub_inf_left P F s hb, arith_sub_inf_right P F s hb⟩, fun s' => ?_, arith_sub_self P F,
    fun ha hb h => ?_⟩
  · rw [arith_sub_eq_arith_add_neg P F (isNaN_inf ..) (isNaN_inf ..), neg_of_inf, Bool.not_not, arith_add_inf_self]
  · rw [arith_sub_eq_arith_add_neg P F (isNaN_zero ..) (isNaN_zero ..), neg_of_zero, arith_add_zeros]
  · have hne := ne_zero_of_threshold_le h
    rw [arith_sub_finite P F ha hb hne]
    exact (roundToFormat_eq_inf_iff F.fmt _ (abs_pos.2 hne)).1.2 h

/-! ### MUL and DIV -/

/-- MUL is commutative on patterns that are not NaN (R75). -/
theorem arith_mul_comm (P : NaNPolicy) (F : Prec) {a b : Pattern F.fmt} (ha : isNaN a = false) (hb : isNaN b = false) :
    arith P .mul F a b = arith P .mul F b a := by
  simp only [arith, op64, mul64_comm P (isNaN_widen P F ha) (isNaN_widen P F hb)]

/-- MUL of a zero and a finite pattern (R69). -/
theorem arith_mul_zero (P : NaNPolicy) (F : Prec) {a b : Pattern F.fmt} (ha : isFinite a = true)
    (hb : isFinite b = true) (h : isZero a = true ∨ isZero b = true) : arith P .mul F a b = zero F.fmt (sign a ^^ sign b) := by
  obtain ⟨hfa, -, hsa, hza⟩ := widen_of_finite P F ha
  obtain ⟨hfb, -, hsb, hzb⟩ := widen_of_finite P F hb
  simp only [arith, op64]
  rw [mul64_zero P hfa hfb (by rwa [hza, hzb]), hsa, hsb, convertD_of_zero]

/-- MUL of an infinity and a pattern that is neither a NaN nor a zero (R69). -/
theorem arith_mul_inf (P : NaNPolicy) (F : Prec) {a b : Pattern F.fmt} (ha : isInf a = true) (hb : isNaN b = false)
    (hz : isZero b = false) : arith P .mul F a b = inf F.fmt (sign a ^^ sign b) := by
  obtain ⟨hsb, hzb⟩ := sign_widen P F hb
  simp only [arith, op64]
  rw [widen_inf P F ha, mul64_inf_left P (sign a) (isNaN_widen P F hb) (hzb.trans hz), hsb, convertD_of_inf]

/-- RoundToFormat keeps the sign it is given (R17). -/
theorem sign_roundToFormat (F : Format) (s : Bool) {m : ℚ} (hm : 0 < m) : sign (roundToFormat F s m) = s := by
  obtain ⟨-, hr⟩ | ⟨-, -, hsign, -⟩ := roundToFormat_cases F s hm
  · rw [hr, sign_inf]
  · exact hsign

/-- A square has sign 0 (R69). -/
theorem sign_arith_mul_self (P : NaNPolicy) (F : Prec) {a : Pattern F.fmt} (ha : isNaN a = false) :
    sign (arith P .mul F a a) = false := by
  obtain hnan | hinf | hfin := class_cases F.fmt a
  · simp [ha] at hnan
  · rw [arith_mul_inf P F hinf ha (not_nan_finite_zero_of_inf hinf).2.2, sign_inf, Bool.xor_self]
  · cases hz : isZero a with
    | true => rw [arith_mul_zero P F hfin hfin (.inl hz), sign_zero, Bool.xor_self]
    | false =>
      rw [arith_mul_finite P F hfin hfin hz hz, Bool.xor_self]
      exact sign_roundToFormat _ _ (abs_pos.2 (mul_ne_zero (val_ne_zero hfin hz) (val_ne_zero hfin hz)))

/-- A product from the overflow threshold on is the infinity of its sign (R69). -/
theorem arith_mul_overflow (P : NaNPolicy) (F : Prec) {a b : Pattern F.fmt} (ha : isFinite a = true)
    (hb : isFinite b = true) (h : (2 - pow2 (-precision F.fmt)) * pow2 (emax F.fmt) ≤ |val a * val b|) :
    arith P .mul F a b = inf F.fmt (sign a ^^ sign b) := by
  have hne := ne_zero_of_threshold_le h
  rw [arith_mul_finite P F ha hb (isZero_eq_false_of_val_ne_zero (left_ne_zero_of_mul hne))
    (isZero_eq_false_of_val_ne_zero (right_ne_zero_of_mul hne))]
  exact (roundToFormat_eq_inf_iff F.fmt _ (abs_pos.2 hne)).1.2 h

/-- A product up to half of Fmin is the zero of its sign (R69). -/
theorem arith_mul_underflow (P : NaNPolicy) (F : Prec) {a b : Pattern F.fmt} (ha : isFinite a = true)
    (hb : isFinite b = true) (h : |val a * val b| ≤ pow2 (emin F.fmt - F.fmt.M) / 2) :
    arith P .mul F a b = zero F.fmt (sign a ^^ sign b) := by
  by_cases hz : isZero a = true ∨ isZero b = true
  · exact arith_mul_zero P F ha hb hz
  · obtain ⟨za, zb⟩ : isZero a = false ∧ isZero b = false := by simpa using hz
    rw [arith_mul_finite P F ha hb za zb]
    exact (roundToFormat_eq_zero_iff F.fmt _ (abs_pos.2 (mul_ne_zero (val_ne_zero ha za) (val_ne_zero hb zb)))).1.2 h

/-- Settles O44, row by row; the second order of the operands by commutativity. -/
theorem multiplicationCornerCases : Obligations.MultiplicationCornerCases := by
  unfold Obligations.MultiplicationCornerCases
  intro P F a b s
  refine ⟨fun ha hb hz => ?_, fun hz hb => ?_, arith_mul_overflow P F, arith_mul_underflow P F, sign_arith_mul_self P F⟩
  · have hab := arith_mul_inf P F ha hb hz
    exact ⟨hab, (arith_mul_comm P F hb (not_nan_finite_zero_of_inf ha).1).trans hab⟩
  · have ha := isFinite_of_isZero hz
    have hab := arith_mul_zero P F ha hb (.inl hz)
    exact ⟨hab, (arith_mul_comm P F (not_nan_inf_of_finite hb).1 (not_nan_inf_of_finite ha).1).trans hab⟩

/-- DIV of a finite nonzero pattern by a zero (R71). -/
theorem arith_div_by_zero (P : NaNPolicy) (F : Prec) {a b : Pattern F.fmt} (ha : isFinite a = true)
    (za : isZero a = false) (zb : isZero b = true) : arith P .div F a b = inf F.fmt (sign a ^^ sign b) := by
  obtain ⟨hfa, -, hsa, hza⟩ := widen_of_finite P F ha
  simp only [arith, op64]
  rw [widen_zero P F zb, div64_by_zero P (sign b) hfa (hza.trans za), hsa, convertD_of_inf]

/-- DIV of an infinity by a finite pattern (R71). -/
theorem arith_div_inf_left (P : NaNPolicy) (F : Prec) {a b : Pattern F.fmt} (ha : isInf a = true)
    (hb : isFinite b = true) : arith P .div F a b = inf F.fmt (sign a ^^ sign b) := by
  obtain ⟨hfb, -, hsb, -⟩ := widen_of_finite P F hb
  simp only [arith, op64]
  rw [widen_inf P F ha, div64_inf_left P (sign a) hfb, hsb, convertD_of_inf]

/-- DIV of a finite pattern by an infinity (R71). -/
theorem arith_div_inf_right (P : NaNPolicy) (F : Prec) {a b : Pattern F.fmt} (ha : isFinite a = true)
    (hb : isInf b = true) : arith P .div F a b = zero F.fmt (sign a ^^ sign b) := by
  obtain ⟨hfa, -, hsa, -⟩ := widen_of_finite P F ha
  simp only [arith, op64]
  rw [widen_inf P F hb, div64_inf_right P (sign b) hfa, hsa, convertD_of_zero]

/-- DIV of a zero by a finite nonzero pattern (R71). -/
theorem arith_div_zero_left (P : NaNPolicy) (F : Prec) {a b : Pattern F.fmt} (za : isZero a = true)
    (hb : isFinite b = true) (zb : isZero b = false) : arith P .div F a b = zero F.fmt (sign a ^^ sign b) := by
  obtain ⟨-, -, hsa, hza⟩ := widen_of_finite P F (isFinite_of_isZero za)
  obtain ⟨hfb, -, hsb, hzb⟩ := widen_of_finite P F hb
  simp only [arith, op64]
  rw [div64_zero P (hza.trans za) hfb (hzb.trans zb), hsa, hsb, convertD_of_zero]

/-- A quotient from the overflow threshold on is the infinity of its sign (R71). -/
theorem arith_div_overflow (P : NaNPolicy) (F : Prec) {a b : Pattern F.fmt} (ha : isFinite a = true)
    (hb : isFinite b = true) (zb : isZero b = false)
    (h : (2 - pow2 (-precision F.fmt)) * pow2 (emax F.fmt) ≤ |val a / val b|) :
    arith P .div F a b = inf F.fmt (sign a ^^ sign b) := by
  have hne := ne_zero_of_threshold_le h
  rw [arith_div_finite P F ha hb (isZero_eq_false_of_val_ne_zero (div_ne_zero_iff.1 hne).1) zb]
  exact (roundToFormat_eq_inf_iff F.fmt _ (abs_pos.2 hne)).1.2 h

/-- A quotient up to half of Fmin is the zero of its sign (R71). -/
theorem arith_div_underflow (P : NaNPolicy) (F : Prec) {a b : Pattern F.fmt} (ha : isFinite a = true)
    (hb : isFinite b = true) (zb : isZero b = false) (h : |val a / val b| ≤ pow2 (emin F.fmt - F.fmt.M) / 2) :
    arith P .div F a b = zero F.fmt (sign a ^^ sign b) := by
  cases za : isZero a with
  | true => exact arith_div_zero_left P F za hb zb
  | false =>
    rw [arith_div_finite P F ha hb za zb]
    exact (roundToFormat_eq_zero_iff F.fmt _ (abs_pos.2 (div_ne_zero (val_ne_zero ha za) (val_ne_zero hb zb)))).1.2 h

/-- A power of two in range rounds to its own pattern (R17). -/
theorem roundToFormat_pow2 {F : Format} {e : ℤ} (hlo : emin F ≤ e) (hhi : e ≤ emax F) :
    roundToFormat F false (pow2 e) = pack F false (BitVec.ofNat F.E (e + bias F).toNat) 0 := by
  obtain ⟨hnormal, hval⟩ := pack_pow2 hlo hhi
  have hpos := pow2_pos e
  have hself := formatValuesRoundToThemselves F _ (isFinite_of_isNormal hnormal)
    (isZero_eq_false_of_val_ne_zero (hval.trans_ne hpos.ne'))
  rwa [sign_pack, hval, abs_of_pos hpos] at hself

/-- A finite nonzero pattern divided by itself is 1 (R71). -/
theorem arith_div_self (P : NaNPolicy) (F : Prec) {a : Pattern F.fmt} (ha : isFinite a = true) (za : isZero a = false) :
    arith P .div F a a = pack F.fmt false (BitVec.ofNat _ (bias F.fmt).toNat) 0 := by
  obtain ⟨hlo, hhi⟩ : emin F.fmt ≤ 0 ∧ 0 ≤ emax F.fmt := by cases F <;> decide
  rw [arith_div_finite P F ha ha za za, Bool.xor_self, div_self (val_ne_zero ha za), abs_one]
  exact (roundToFormat_pow2 hlo hhi).trans (by rw [zero_add])

/-- Settles O45, row by row. -/
theorem divisionCornerCases : Obligations.DivisionCornerCases := by
  unfold Obligations.DivisionCornerCases
  intro P F a b s
  exact ⟨arith_div_by_zero P F, arith_div_inf_left P F, arith_div_inf_right P F, arith_div_zero_left P F,
    arith_div_overflow P F, arith_div_underflow P F, arith_div_self P F⟩

/-! ### The order of the operands -/

/-- Under the reference policy the result on a first NaN operand has that operand's sign (R20). -/
theorem sign_arith_reference_of_isNaN (d : Bool) (op : Op) (F : Prec) {a : Pattern F.fmt} (b : Pattern F.fmt)
    (ha : isNaN a = true) : sign (arith (referencePolicy d) op F a b) = sign a := by
  obtain ⟨hnan, -, hsign⟩ := reference_convNaN_quiet d F.fmt .D a
  have hx : isNaN (widen (referencePolicy d) F a) = true := by rwa [widen_nan _ F ha]
  have hq : isNaN (quiet (widen (referencePolicy d) F a)) = true := (isNaN_quiet (expf_of_isNaN hx)).1
  rw [arith, op64_of_isNaN _ op (.inl hx), reference_propNaN_of_isNaN d _ hx, convertD_nan _ F hq,
    (reference_convNaN_quiet d .D F.fmt _).2.2, (quiet_fields _).1, widen_nan _ F ha, hsign]

/-- Two NaNs of opposite signs tell the order of the operands under the reference policy. -/
theorem arith_reference_not_comm (d : Bool) (op : Op) (F : Prec) :
    arith (referencePolicy d) op F (asNaN F.fmt (zero F.fmt false)) (asNaN F.fmt (zero F.fmt true)) ≠
      arith (referencePolicy d) op F (asNaN F.fmt (zero F.fmt true)) (asNaN F.fmt (zero F.fmt false)) := fun h => by
  have hsign := congrArg sign h
  rw [sign_arith_reference_of_isNaN d op F _ (isNaN_asNaN ..), sign_arith_reference_of_isNaN d op F _ (isNaN_asNaN ..)]
    at hsign
  simp at hsign

/-- Settles O49: the binary64 operations are symmetric off NaNs; two NaNs of opposite signs, and an infinity with a
zero, tell the order where it matters. -/
theorem additionAndMultiplicationCommute : Obligations.AdditionAndMultiplicationCommute := by
  unfold Obligations.AdditionAndMultiplicationCommute
  refine ⟨fun P F a b ha hb => ⟨arith_add_comm P F ha hb, arith_mul_comm P F ha hb⟩, fun F =>
    ⟨⟨_, _, arith_reference_not_comm false .add F, arith_reference_not_comm false .mul F⟩, fun P =>
      ⟨inf F.fmt false, zero F.fmt false, isNaN_inf .., isNaN_zero .., fun h => ?_, fun h => ?_⟩⟩⟩
  · rw [arith_sub_inf_left P F false (isFinite_zero ..), arith_sub_inf_right P F false (isFinite_zero ..)] at h
    simpa using congrArg sign h
  · rw [arith_div_inf_left P F (isInf_inf ..) (isFinite_zero ..),
      arith_div_inf_right P F (isFinite_zero ..) (isInf_inf ..)] at h
    simpa using congrArg isInf h

end Sys2Proof.Machine

/-! SUPPORT. NaN results of the operations, the range and the exactness of the binary64 intermediate, H's overflow
boundary, and the whole state after ADD, SUB, MUL and DIV (41_arith.md R63, R64, R66, R68, R70, R72, R73;
90_conflicts.md C1). -/

namespace Sys2Proof.Machine

/-! ### NaN results -/

/-- Settles O36: Widen gives a NaN to convNaN, and every operation gives its NaN operands to propNaN. -/
theorem nanOperandsGiveNaN : Obligations.NaNOperandsGiveNaN := by
  unfold Obligations.NaNOperandsGiveNaN
  intro P hP op F a b h
  have hwiden : ∀ x : Pattern F.fmt, isNaN x = true → isNaN (widen P F x) = true := fun x hx => by
    rw [widen_nan P F hx]; exact hP.convNaN_isNaN _ _ _ hx
  have hwide := h.imp (hwiden a) (hwiden b)
  have hprop := hP.propNaN_isNaN .D _ _ hwide
  rw [arith, op64_of_isNaN P op hwide, convertD_nan P F hprop]
  exact ⟨rfl, hP.convNaN_isNaN _ _ _ hprop⟩

/-- Where a binary64 operation gives its default NaN, Arith gives that NaN converted. -/
theorem arith_of_op64_defaultNaN {P : NaNPolicy} (hP : P.Lawful) {op : Op} {F : Prec} {a b : Pattern F.fmt}
    (h : op64 P op (widen P F a) (widen P F b) = P.defaultNaN .D) :
    arith P op F a b = P.convNaN .D F.fmt (P.defaultNaN .D) := by
  rw [arith, h, convertD_nan P F (hP.defaultNaN_isNaN .D)]

/-- Settles O37, one invalid operation after the other. -/
theorem invalidOperationsGiveDefaultNaN : Obligations.InvalidOperationsGiveDefaultNaN := by
  unfold Obligations.InvalidOperationsGiveDefaultNaN
  intro P hP F s s' z hz i d
  have hzero := eq_zero_of_isZero hz
  refine ⟨hP.convNaN_isNaN _ _ _ (hP.defaultNaN_isNaN .D), arith_of_op64_defaultNaN hP ?_,
    arith_of_op64_defaultNaN hP ?_, arith_of_op64_defaultNaN hP ?_, arith_of_op64_defaultNaN hP ?_,
    arith_of_op64_defaultNaN hP ?_, arith_of_op64_defaultNaN hP ?_⟩
  · simp [i, op64, add64]
  · simp [i, op64, sub64, add64]
  · rw [hzero]; simp [i, op64, mul64]
  · rw [hzero]; simp [i, op64, mul64]
  · simp [i, op64, div64]
  · rw [hzero]; simp [op64, div64]

/-! ### The range of the intermediate -/

/-- The binary64 result t for the exact result v: a zero for 0, otherwise a normal number with |v| in the range
(R72). -/
def Fits (t : Pattern .D) (v lo hi : ℚ) : Prop :=
  (v = 0 ∧ isZero t = true) ∨ (lo ≤ |v| ∧ |v| ≤ hi ∧ isNormal t = true)

/-- The rounding to binary64 of a magnitude in a range of binary64's normal numbers. -/
theorem fits_roundToFormat (s : Bool) {v : ℚ} {j k : ℤ} (hj : emin .D ≤ j) (hk : k ≤ emax .D) (hlo : pow2 j ≤ |v|)
    (hhi : |v| ≤ pow2 k) : Fits (roundToFormat .D s |v|) v (pow2 j) (pow2 k) :=
  .inr ⟨hlo, hhi, (roundToFormat_D_normal s ((pow2_le_iff.2 hj).trans hlo) (hhi.trans (pow2_le_iff.2 hk))).1⟩

theorem fits_add64 (P : NaNPolicy) (F : Prec) {a b : Pattern F.fmt} (ha : isFinite a = true) (hb : isFinite b = true) :
    Fits (add64 P (widen P F a) (widen P F b)) (val a + val b) (pow2 (-149)) (pow2 129) := by
  obtain ⟨hfa, hva, -⟩ := widen_of_finite P F ha
  obtain ⟨hfb, hvb, -⟩ := widen_of_finite P F hb
  by_cases h : val a + val b = 0
  · exact .inl ⟨h, isZero_add64 P hfa hfb (by rwa [hva, hvb])⟩
  · rw [add64_finite P hfa hfb (by rwa [hva, hvb]), hva, hvb]
    exact fits_roundToFormat _ (by decide) (by decide) (le_abs_add ha hb h) (abs_add_lt ha hb).le

theorem fits_mul64 (P : NaNPolicy) (F : Prec) {a b : Pattern F.fmt} (ha : isFinite a = true) (hb : isFinite b = true) :
    Fits (mul64 P (widen P F a) (widen P F b)) (val a * val b) (pow2 (-298)) (pow2 256) := by
  obtain ⟨hfa, hva, -, hza⟩ := widen_of_finite P F ha
  obtain ⟨hfb, hvb, -, hzb⟩ := widen_of_finite P F hb
  by_cases hz : isZero a = true ∨ isZero b = true
  · refine .inl ⟨mul_eq_zero.2 (hz.imp val_of_isZero val_of_isZero), ?_⟩
    rw [mul64_zero P hfa hfb (by rwa [hza, hzb])]
    exact isZero_zero ..
  · obtain ⟨za, zb⟩ : isZero a = false ∧ isZero b = false := by simpa using hz
    rw [mul64_finite P hfa hfb (hza.trans za) (hzb.trans zb), hva, hvb]
    exact fits_roundToFormat _ (by decide) (by decide) (le_abs_mul ha hb za zb) (abs_mul_lt ha hb).le

theorem fits_div64 (P : NaNPolicy) (F : Prec) {a b : Pattern F.fmt} (ha : isFinite a = true) (hb : isFinite b = true)
    (zb : isZero b = false) :
    Fits (div64 P (widen P F a) (widen P F b)) (val a / val b) (pow2 (-277)) (pow2 277) := by
  obtain ⟨hfa, hva, -, hza⟩ := widen_of_finite P F ha
  obtain ⟨hfb, hvb, -, hzb⟩ := widen_of_finite P F hb
  cases za : isZero a with
  | true =>
    refine .inl ⟨by rw [val_of_isZero za, zero_div], ?_⟩
    rw [div64_zero P (hza.trans za) hfb (hzb.trans zb)]
    exact isZero_zero ..
  | false =>
    rw [div64_finite P hfa hfb (hza.trans za) (hzb.trans zb), hva, hvb]
    exact fits_roundToFormat _ (by decide) (by decide) (le_abs_div ha hb za zb) (abs_div_le ha hb zb)

/-- Settles O46, operation by operation; SUB is ADD with the subtrahend negated. -/
theorem intermediateNeverOverflowsOrUnderflows : Obligations.IntermediateNeverOverflowsOrUnderflows := by
  unfold Obligations.IntermediateNeverOverflowsOrUnderflows
  intro P F a b ha hb x y fits
  have hnb := (isFinite_neg b).trans hb
  refine ⟨⟨fits_add64 P F ha hb, abs_add_lt ha hb⟩, ?_, ⟨fits_mul64 P F ha hb, abs_mul_lt ha hb⟩, fits_div64 P F ha hb⟩
  rw [sub_eq_add_val_neg, sub64_widen P F (not_nan_inf_of_finite ha).1 (not_nan_inf_of_finite hb).1]
  exact ⟨fits_add64 P F ha hnb, abs_add_lt ha hnb⟩

/-! ### The exactness of the intermediate -/

/-- Rounding to binary64 a magnitude that binary64 has, within its range, keeps the value. -/
theorem val_roundToFormat_D (s : Bool) {m : ℚ} (hrep : Representable .D m) (hlo : pow2 (-298) ≤ m)
    (hhi : m ≤ pow2 277) : val (roundToFormat .D s m) = signValue s * m := by
  obtain ⟨-, -, hval⟩ := roundToFormat_D_normal s ((pow2_le_iff.2 (by decide)).trans hlo)
    (hhi.trans (pow2_le_iff.2 (by decide)))
  rw [hval, rounded_eq_self ((pow2_pos _).trans_le hlo) hrep]

/-- ADD64 is exact where binary64 has the sum (R73). -/
theorem val_add64_of_representable (P : NaNPolicy) (F : Prec) {a b : Pattern F.fmt} (ha : isFinite a = true)
    (hb : isFinite b = true) (hrep : Representable .D |val a + val b|) :
    val (add64 P (widen P F a) (widen P F b)) = val a + val b := by
  obtain ⟨hfa, hva, -⟩ := widen_of_finite P F ha
  obtain ⟨hfb, hvb, -⟩ := widen_of_finite P F hb
  by_cases h : val a + val b = 0
  · rw [h, val_of_isZero (isZero_add64 P hfa hfb (by rwa [hva, hvb]))]
  · rw [add64_finite P hfa hfb (by rwa [hva, hvb]), hva, hvb, val_roundToFormat_D _ hrep
      ((pow2_le_iff.2 (by decide)).trans (le_abs_add ha hb h))
      ((abs_add_lt ha hb).le.trans (pow2_le_iff.2 (by decide))), signValue_decide_mul_abs]

theorem signValue_xor (s t : Bool) : signValue (s ^^ t) = signValue s * signValue t := by
  cases s <;> cases t <;> simp [signValue]

/-- MUL64 is exact on operands of H and of S (R73). -/
theorem val_mul64 (P : NaNPolicy) (F : Prec) {a b : Pattern F.fmt} (ha : isFinite a = true) (hb : isFinite b = true) :
    val (mul64 P (widen P F a) (widen P F b)) = val a * val b := by
  obtain ⟨hfa, hva, hsa, hza⟩ := widen_of_finite P F ha
  obtain ⟨hfb, hvb, hsb, hzb⟩ := widen_of_finite P F hb
  by_cases hz : isZero a = true ∨ isZero b = true
  · rw [mul64_zero P hfa hfb (by rwa [hza, hzb]), val_of_isZero (isZero_zero ..)]
    exact (mul_eq_zero.2 (hz.imp val_of_isZero val_of_isZero)).symm
  · obtain ⟨za, zb⟩ : isZero a = false ∧ isZero b = false := by simpa using hz
    obtain ⟨-, ha', -⟩ := finite_val ha
    obtain ⟨-, hb', -⟩ := finite_val hb
    rw [mul64_finite P hfa hfb (hza.trans za) (hzb.trans zb), hva, hvb, hsa, hsb,
      val_roundToFormat_D _ (representable_mul ha hb) (le_abs_mul ha hb za zb)
        ((abs_mul_lt ha hb).le.trans (pow2_le_iff.2 (by decide))), signValue_xor, abs_mul, mul_mul_mul_comm,
      ← ha', ← hb']

/-- A pattern's value is an integer of at most M + 1 bits times a power of two; infinities and NaNs count as 0. -/
theorem abs_val_eq_grid_point {F : Format} (x : Pattern F) :
    ∃ (k : ℤ) (n : ℕ), n < 2 ^ (F.M + 1) ∧ |val x| = n * pow2 k := by
  by_cases hx : isFinite x = true
  · obtain ⟨e, n, -, -, hn, hval⟩ := finite_grid_point hx
    exact ⟨e - F.M, n, hn, hval⟩
  · obtain ⟨⟨-, hsub⟩, hnormal⟩ : (isZero x = false ∧ isSub x = false) ∧ isNormal x = false := by
      simpa [isFinite] using hx
    exact ⟨0, 0, by positivity, by simp [val, hsub, hnormal]⟩

/-- No pattern has the value 1/3. -/
theorem val_ne_one_third {F : Format} (x : Pattern F) : val x ≠ 1 / 3 := fun h => by
  obtain ⟨k, n, -, hval⟩ := abs_val_eq_grid_point x
  have hgrid : ((3 * n : ℕ) : ℚ) * pow2 k = 1 := by
    rw [h, abs_of_pos (by norm_num)] at hval
    push_cast; linarith
  have hpow : ((3 * n * 2 ^ k.toNat : ℕ) : ℚ) = (2 ^ (-k).toNat : ℕ) := by
    have hshift : pow2 (k.toNat : ℤ) = pow2 k * pow2 ((-k).toNat : ℤ) := by rw [← pow2_add]; congr 1; omega
    rw [Nat.cast_mul, ← pow2_natCast, ← pow2_natCast, hshift, ← mul_assoc, hgrid, one_mul]
  have hdvd : 3 ∣ 2 ^ (-k).toNat := by
    rw [← Nat.cast_injective hpow, mul_assoc]; exact Nat.dvd_mul_right ..
  exact absurd (Nat.prime_three.dvd_of_dvd_pow hdvd) (by decide)

/-- No binary64 pattern has the value 2^127 + 2^-149, which needs 277 bits. -/
theorem val_ne_wide_sum (x : Pattern .D) : val x ≠ pow2 127 + pow2 (-149) := fun h => by
  obtain ⟨k, n, hn, hval⟩ := abs_val_eq_grid_point x
  rw [h, abs_of_pos (add_pos (pow2_pos _) (pow2_pos _))] at hval
  have hodd : pow2 127 + pow2 (-149) = ((2 ^ 276 + 1 : ℕ) : ℚ) * pow2 (-149) := by
    rw [show (127 : ℤ) = (276 : ℕ) + -149 from rfl, pow2_add, Nat.cast_add, Nat.cast_one,
      ← pow2_natCast, add_mul, one_mul]
  rw [hodd] at hval
  obtain hk | hk := le_or_gt k (-149)
  · -- n is at least the odd number
    have hle : ((2 ^ 276 + 1 : ℕ) : ℚ) * pow2 k ≤ n * pow2 k :=
      (mul_le_mul_of_nonneg_left (pow2_le_iff.2 hk) (Nat.cast_nonneg _)).trans_eq hval
    have hn' : 2 ^ 276 + 1 ≤ n := by exact_mod_cast le_of_mul_le_mul_right hle (pow2_pos k)
    have hsmall : n < 2 ^ 53 := hn
    omega
  · -- the odd number is even
    have hshift : pow2 k = ((2 ^ (k + 149).toNat : ℕ) : ℚ) * pow2 (-149) := by
      rw [← pow2_natCast, ← pow2_add]; congr 1; omega
    rw [hshift, ← mul_assoc] at hval
    have hnat : 2 ^ 276 + 1 = n * 2 ^ (k + 149).toNat := by
      exact_mod_cast mul_right_cancel₀ (pow2_ne_zero _) hval
    have heven : 2 ∣ n * 2 ^ (k + 149).toNat := Dvd.dvd.mul_left (dvd_pow_self 2 (by omega)) n
    omega

/-- Settles O47: the exact results have at most 53 bits, and binary64 has neither 2^127 + 2^-149 nor 1/3. -/
theorem intermediateIsExactWhereStated : Obligations.IntermediateIsExactWhereStated := by
  unfold Obligations.IntermediateIsExactWhereStated
  refine ⟨fun P a b ha hb => ?_, fun P a b ha hb => val_mul64 P .S ha hb, fun P =>
    ⟨val_ne_wide_sum _, val_ne_wide_sum _, val_ne_one_third _, val_ne_one_third _⟩⟩
  have hnb := (isFinite_neg b).trans hb
  refine ⟨val_add64_of_representable P .H ha hb (representable_add_half ha hb), ?_, val_mul64 P .H ha hb⟩
  rw [sub64_widen P .H (not_nan_inf_of_finite ha).1 (not_nan_inf_of_finite hb).1, sub_eq_add_val_neg]
  exact val_add64_of_representable P .H ha hnb (representable_add_half ha hnb)

/-! ### H's overflow boundary and the commands -/

/-- The exact sum of two given H patterns and its rounding give ADD's result under every policy. -/
theorem arith_add_half_eq (P : NaNPolicy) {a b r : Pattern .H}
    (h : isFinite a = true ∧ isFinite b = true ∧ val a + val b ≠ 0 ∧
      roundToFormat .H (decide (val a + val b < 0)) |val a + val b| = r) : arith P .add .H a b = r := by
  obtain ⟨ha, hb, hne, hround⟩ := h
  exact (arith_add_finite P .H ha hb hne).trans hround

/-- Settles O50: the single roundings of the exact sums, and of the two binary64 operands, by evaluation. -/
theorem halfOverflowBoundary : Obligations.HalfOverflowBoundary := by
  unfold Obligations.HalfOverflowBoundary
  exact fun P => ⟨arith_add_half_eq P (by decide +kernel), arith_add_half_eq P (by decide +kernel),
    arith_add_half_eq P (by decide +kernel), (convertD_finite P .H (by decide) (by decide)).trans (by decide +kernel),
    (convertD_finite P .H (by decide) (by decide)).trans (by decide +kernel)⟩

/-- An arithmetic command's arm: Arith of the two operands, completed as a numeric result (R63). -/
theorem exec_single (op : Op) (F : Prec) (s : State) :
    exec (Instr.single op F) s =
      .next (s.completeNum (resultWord F (arith unitPolicy op F (operandXA F s) (operandXB F s)))) := by
  cases op <;> rfl

/-- Settles O19: the four arms with the completion and Arith written out. -/
theorem arithmeticCommandsComplete : Obligations.ArithmeticCommandsComplete := by
  unfold Obligations.ArithmeticCommandsComplete
  intro F s x y done
  exact ⟨exec_single .add F s, exec_single .sub F s, exec_single .mul F s, exec_single .div F s⟩

end Sys2Proof.Machine

/-! SUPPORT. XTR's strings character by character, and the numbers they denote (42_extract.md R76, R77, R79). -/

namespace Sys2Proof.Machine

/-! ### Widths and the command -/

/-- Settles O51: the lengths for every format, at H and at S. -/
theorem extractedStringWidths : Obligations.ExtractedStringWidths := by
  unfold Obligations.ExtractedStringWidths
  exact ⟨fun F x => ⟨hexString_length F x, binString_length F x⟩,
    fun x => ⟨hexString_length .H x, binString_length .H x⟩, fun x => ⟨hexString_length .S x, binString_length .S x⟩⟩

/-- XTR's arm: the two strings of the operand, completed as an extraction (R76). -/
theorem exec_xtr (F : Prec) (s : State) :
    exec (.xtr F) s = .next (s.complete .xtr
      { Response.unwritten with
        txt0 := some (hexString F.fmt (operandXA F s)), txt1 := some (binString F.fmt (operandXA F s)) }) := rfl

/-- Settles O21: XTR's arm with the completion and the operand written out. -/
theorem extractionCommandCompletes : Obligations.ExtractionCommandCompletes := by
  unfold Obligations.ExtractionCommandCompletes
  intro F s x
  rw [exec_xtr, State.complete, statusDone_xtr, operandXA]

/-! ### The character at each place -/

/-- A pattern is a whole number of nibbles. -/
theorem width_eq_nibbles (F : Format) : F.w = 4 * (F.w / 4) := by cases F <;> rfl

/-- The entry at a place of a list written from its highest index down. -/
theorem getElem?_map_reverse_range {α : Type} (f : Nat → α) {n k : Nat} (hk : k < n) :
    ((List.range n).reverse.map f)[k]? = some (f (n - 1 - k)) := by
  rw [List.getElem?_map, List.getElem?_reverse (by simpa using hk), List.length_range,
    List.getElem?_range (by omega), Option.map_some]

theorem binString_getElem? {F : Format} (x : Pattern F) {k : Nat} (hk : k < F.w) :
    (binString F x)[k]? = some (bitChar (x.getLsbD (F.w - 1 - k))) :=
  getElem?_map_reverse_range _ hk

theorem hexString_getElem? {F : Format} (x : Pattern F) {k : Nat} (hk : k < F.w / 4) :
    (hexString F x)[2 + k]? = some (hexDigit (x.extractLsb' (F.w - 4 - 4 * k) 4)) := by
  have hplace : F.w - 4 - 4 * k = 4 * (F.w / 4 - 1 - k) := by have := width_eq_nibbles F; omega
  rw [Nat.add_comm 2 k, hplace]
  exact getElem?_map_reverse_range _ hk

/-- The four binary digits at a hexadecimal digit's place are that nibble's bits, the highest first. -/
theorem binString_getElem?_nibble {F : Format} (x : Pattern F) {k j : Nat} (hk : k < F.w / 4) (hj : j < 4) :
    (binString F x)[4 * k + j]? = some (bitChar ((x.extractLsb' (F.w - 4 - 4 * k) 4).getLsbD (3 - j))) := by
  have hw := width_eq_nibbles F
  have hplace : F.w - 4 - 4 * k + (3 - j) = F.w - 1 - (4 * k + j) := by omega
  have hbit : 3 - j < 4 := by omega
  rw [binString_getElem? x (by omega), BitVec.getLsbD_extractLsb', hplace, decide_eq_true hbit, Bool.true_and]

/-! ### The numbers the strings denote -/

/-- Reading the last n digits of N in base b, the highest first, gives N modulo b^n. -/
theorem foldl_digits (b N n : Nat) :
    (List.range n).reverse.foldl (fun a i => b * a + N / b ^ i % b) 0 = N % b ^ n := by
  rw [List.foldl_reverse]
  induction n generalizing N with
  | zero => simp [Nat.mod_one]
  | succ n ih =>
    simp only [List.range_succ_eq_map, List.foldr_cons, List.foldr_map, Nat.succ_eq_add_one, pow_succ',
      ← Nat.div_div_eq_div_mul, ih, pow_zero, Nat.div_one, Nat.mod_mul]
    exact Nat.add_comm ..

/-- A bit's character read as a binary digit. -/
theorem binDigit_bitChar (b : Bool) : (if bitChar b = 0x31 then 1 else 0) = b.toNat := by cases b <;> rfl

theorem binString_denotes {F : Format} (x : Pattern F) :
    (binString F x).foldl (fun n c => 2 * n + if c = 0x31 then 1 else 0) 0 = x.toNat := by
  have hbit (i : Nat) : (x.getLsbD i).toNat = x.toNat / 2 ^ i % 2 := Nat.toNat_testBit ..
  simp only [binString, List.foldl_map, binDigit_bitChar, hbit]
  rw [foldl_digits, Nat.mod_eq_of_lt x.isLt]

theorem hexString_denotes {F : Format} (x : Pattern F) :
    ((hexString F x).drop 2).foldl (fun n c => 16 * n + (hexValue c).toNat) 0 = x.toNat := by
  have hbase : 2 ^ 4 = 16 := rfl
  have hnibble (i : Nat) : (x.extractLsb' (4 * i) 4).toNat = x.toNat / 16 ^ i % 16 := by
    rw [BitVec.extractLsb'_toNat, Nat.shiftRight_eq_div_pow, pow_mul, hbase]
  have hx : x.toNat < 16 ^ (F.w / 4) := by
    rw [← hbase, ← pow_mul, ← width_eq_nibbles]
    exact x.isLt
  simp only [hexString, List.cons_append, List.nil_append, List.drop_succ_cons, List.drop_zero, List.foldl_map,
    hexValue_hexDigit, hnibble]
  rw [foldl_digits, Nat.mod_eq_of_lt hx]

/-- Settles O52: both strings list the pattern's digits from the highest place down. -/
theorem extractedStringsAreNumerals : Obligations.ExtractedStringsAreNumerals := by
  unfold Obligations.ExtractedStringsAreNumerals
  intro F x
  exact ⟨rfl, rfl, hexString_denotes x, binString_denotes x, binString_getElem? x (by cases F <;> decide),
    fun k hk => ⟨hexString_getElem? x hk, fun j hj => binString_getElem?_nibble x hk hj⟩⟩

end Sys2Proof.Machine

/-! SUPPORT. What GRP accepts, the runs it cuts a string into, and the string it makes of them (43_group.md R80 to
R83). -/

namespace Sys2Proof.Machine

/-! ### The accepted strings -/

theorem all_isBinChar_iff {s : Text} : s.all isBinChar = true ↔ ∀ c ∈ s, c = 0x30 ∨ c = 0x31 := by
  simp [isBinChar]

theorem isHexChar_iff {c : Byte} :
    isHexChar c = true ↔ (0x30 ≤ c.toNat ∧ c.toNat ≤ 0x39) ∨ (0x61 ≤ c.toNat ∧ c.toNat ≤ 0x66) := by
  simp [isHexChar]

/-- A string that begins with `0x` is never taken as a plain one. -/
theorem not_all_isBinChar_0x (h : Text) : ¬(0x30 :: 0x78 :: h : Text).all isBinChar = true := by
  simp [isBinChar]

/-- A hexadecimal input is expanded digit by digit. -/
theorem groupSource_hex {h : Text} (hne : h ≠ []) (hall : ∀ c ∈ h, isHexChar c = true) :
    groupSource (0x30 :: 0x78 :: h) = some (h.flatMap nibbleChars) := by
  have hlen : h.length ≠ 0 := by simpa using hne
  rw [groupSource, if_pos ⟨rfl, rfl⟩, if_neg hlen, if_pos (List.all_eq_true.2 hall)]

/-- A string is grouped as it is or as the expansion of the digits after `0x`, and no other way. -/
theorem groupSource_eq_some_iff {s b : Text} :
    groupSource s = some b ↔ (s.all isBinChar = true ∧ b = s) ∨
      ∃ h, s = 0x30 :: 0x78 :: h ∧ h ≠ [] ∧ (∀ c ∈ h, isHexChar c = true) ∧ b = h.flatMap nibbleChars := by
  constructor
  · intro hs
    unfold groupSource at hs
    split at hs
    next c0 c1 h =>
      split_ifs at hs with hzerox hempty hhex hbin
      · obtain ⟨rfl, rfl⟩ := hzerox
        exact .inr ⟨h, rfl, by simpa using hempty, List.all_eq_true.1 hhex, (Option.some.inj hs).symm⟩
      · exact .inl ⟨hbin, (Option.some.inj hs).symm⟩
    next =>
      split_ifs at hs with hbin
      exact .inl ⟨hbin, (Option.some.inj hs).symm⟩
  · rintro (⟨hbin, rfl⟩ | ⟨h, rfl, hne, hall, rfl⟩)
    · exact groupSource_plain hbin
    · exact groupSource_hex hne hall

/-- R82's length limit without the model's floor of 32, which the parameter implies. -/
theorem tooLong_eq_false_iff {limit : GrpMaxChars} {n : Nat} :
    tooLong limit n = false ↔ ∀ above, limit = .bounded above → n ≤ 32 + above := by
  cases limit with
  | unbounded => simp [tooLong]
  | bounded above =>
    simp only [tooLong, Bool.and_eq_false_iff, decide_eq_false_iff_not, GrpMaxChars.bounded.injEq, forall_eq']
    omega

theorem groupString_eq_some_iff {limit : GrpMaxChars} {s out : Text} :
    groupString limit s = some out ↔
      tooLong limit s.length = false ∧ ∃ b, groupSource s = some b ∧ groupRuns b = out := by
  unfold groupString
  split_ifs with h <;> simp [h]

/-! ### The command -/

/-- GRP of a string within the limit is the grouped runs of the binary string R80 takes from it. -/
theorem exec_grp_of_source {s : State} {b : Text} (hlen : tooLong Config.grpMaxChars s.ports.sin.length = false)
    (hb : groupSource s.ports.sin = some b) :
    exec .grp s = .next { s with
      status := 0x19
      resp := { Response.unwritten with txt0 := some (groupRuns b) } } :=
  execGrp_of_some (groupString_eq_some_iff.2 ⟨hlen, b, hb, rfl⟩)

/-- Settles O22: each accepted form is what R80 groups, as it is or expanded. -/
theorem groupingCommandCompletes : Obligations.GroupingCommandCompletes := by
  unfold Obligations.GroupingCommandCompletes
  intro s hlen done
  refine ⟨fun hbin => exec_grp_of_source hlen (groupSource_plain (all_isBinChar_iff.2 hbin)), ?_⟩
  intro h hsin hne hall
  exact exec_grp_of_source hlen (hsin ▸ groupSource_hex hne hall)

/-- GRP gives a string exactly on R82's two forms within the limit. -/
theorem exists_groupString_iff {limit : GrpMaxChars} {s : Text} :
    (∃ out, groupString limit s = some out) ↔
      ((∀ c ∈ s, c = 0x30 ∨ c = 0x31) ∨
        ∃ h, s = 0x30 :: 0x78 :: h ∧ h ≠ [] ∧
          ∀ c ∈ h, (0x30 ≤ c.toNat ∧ c.toNat ≤ 0x39) ∨ (0x61 ≤ c.toNat ∧ c.toNat ≤ 0x66)) ∧
      ∀ above, limit = .bounded above → s.length ≤ 32 + above := by
  simp only [← all_isBinChar_iff, ← isHexChar_iff, ← tooLong_eq_false_iff, groupString_eq_some_iff,
    groupSource_eq_some_iff]
  constructor
  · rintro ⟨_, hlen, b, ⟨hbin, -⟩ | ⟨h, hs, hne, hall, -⟩, -⟩
    · exact ⟨.inl hbin, hlen⟩
    · exact ⟨.inr ⟨h, hs, hne, hall⟩, hlen⟩
  · rintro ⟨hbin | ⟨h, hs, hne, hall⟩, hlen⟩
    · exact ⟨_, hlen, s, .inl ⟨hbin, rfl⟩, rfl⟩
    · exact ⟨_, hlen, _, .inr ⟨h, hs, hne, hall, rfl⟩, rfl⟩

/-- Settles O23: GRP completes with a string or raises MalformedInput, and the strings it answers are the accepted
ones. -/
theorem groupingAcceptsExactlyTwoForms : Obligations.GroupingAcceptsExactlyTwoForms := by
  unfold Obligations.GroupingAcceptsExactlyTwoForms
  intro s accepted
  have haccepted : (∃ out, groupString Config.grpMaxChars s.ports.sin = some out) ↔ accepted :=
    exists_groupString_iff
  obtain ⟨out, hout, he⟩ | ⟨hnone, he⟩ := execGrp_cases s
  · exact ⟨fun _ => ⟨out, he⟩, fun hrefused => absurd (haccepted.1 ⟨out, hout⟩) hrefused⟩
  · refine ⟨fun ha => ?_, fun _ => he⟩
    obtain ⟨out, hout⟩ := haccepted.2 ha
    cases hnone.symm.trans hout

/-! ### The runs -/

/-- Induction along the runs: the empty string, and a first run before the rest. -/
theorem runs_induction {motive : Text → Prop} (nil : motive [])
    (run : ∀ b, b ≠ [] → motive (b.drop 4) → motive b) : ∀ b, motive b
  | [] => nil
  | a :: r => run (a :: r) (List.cons_ne_nil a r) (runs_induction nil run ((a :: r).drop 4))
termination_by b => b.length

/-- The first run is the first four characters, or all there are. -/
theorem runsOf4_of_ne_nil {b : Text} (h : b ≠ []) : runsOf4 b = b.take 4 :: runsOf4 (b.drop 4) := by
  match b with
  | [_] | [_, _] | [_, _, _] | _ :: _ :: _ :: _ :: _ => rfl

theorem runsOf4_length (b : Text) : (runsOf4 b).length = (b.length + 3) / 4 := by
  induction b using runs_induction with
  | nil => rfl
  | run b hb ih =>
    have hpos := List.length_pos_of_ne_nil hb
    rw [runsOf4_of_ne_nil hb, List.length_cons, ih, List.length_drop]
    omega

/-- The run at place j is the up to four characters from place 4 j on. -/
theorem runsOf4_getElem? {b g : Text} {j : Nat} (h : (runsOf4 b)[j]? = some g) : g = (b.drop (4 * j)).take 4 := by
  induction b using runs_induction generalizing j with
  | nil => cases h
  | run b hb ih =>
    rw [runsOf4_of_ne_nil hb] at h
    cases j with
    | zero => exact (Option.some.inj h).symm
    | succ j => rw [ih h, List.drop_drop, Nat.mul_succ, Nat.add_comm]

/-- A run has four characters, or the rest of the string where that is shorter. -/
theorem length_of_runsOf4_getElem? {b g : Text} {j : Nat} (h : (runsOf4 b)[j]? = some g) :
    g.length = min 4 (b.length - 4 * j) := by
  rw [runsOf4_getElem? h, List.length_take, List.length_drop]

/-- A string of whole runs has no short one. -/
theorem length_of_mem_runsOf4 {b g : Text} {k : Nat} (hb : b.length = 4 * k) (hg : g ∈ runsOf4 b) : g.length = 4 := by
  obtain ⟨j, hj⟩ := List.mem_iff_getElem?.1 hg
  have hlt : j < (runsOf4 b).length := (List.getElem?_eq_some_iff.1 hj).1
  rw [runsOf4_length] at hlt
  rw [length_of_runsOf4_getElem? hj]
  omega

/-! ### The length of the output -/

theorem flatMap_nibbleChars_length (h : Text) : (h.flatMap nibbleChars).length = 4 * h.length := by
  induction h with
  | nil => rfl
  | cons c h ih =>
    rw [List.flatMap_cons, List.length_append, ih, List.length_cons, Nat.mul_succ, Nat.add_comm]
    rfl

/-- An input that begins with `0x` is grouped as the expansion of its digits. -/
theorem groupSource_0x {h b : Text} (hb : groupSource (0x30 :: 0x78 :: h) = some b) :
    h ≠ [] ∧ b = h.flatMap nibbleChars := by
  obtain ⟨hbin, -⟩ | ⟨h', hs, hne, -, rfl⟩ := groupSource_eq_some_iff.1 hb
  · exact absurd hbin (not_all_isBinChar_0x h)
  · cases hs
    exact ⟨hne, rfl⟩

/-- A hexadecimal input of k digits gives k full groups and the spaces between them. -/
theorem groupString_hex_length {limit : GrpMaxChars} {h out : Text}
    (hout : groupString limit (0x30 :: 0x78 :: h) = some out) : out.length = 5 * h.length - 1 := by
  obtain ⟨-, b, hb, rfl⟩ := groupString_eq_some_iff.1 hout
  obtain ⟨hne, rfl⟩ := groupSource_0x hb
  have hpos := List.length_pos_of_ne_nil hne
  rw [groupRuns_length, flatMap_nibbleChars_length]
  omega

/-- Up to 32 characters, the unit's limit plays no part. -/
theorem groupString_of_short {limit : GrpMaxChars} {s : Text} (h : s.length ≤ 32) :
    groupString limit s = (groupSource s).map groupRuns := by
  simp [groupString, tooLong_of_le h]

/-- Settles O53: the lengths of the runs and of the grouped string; the two examples by evaluation. -/
theorem groupedOutputLength : Obligations.GroupedOutputLength := by
  unfold Obligations.GroupedOutputLength
  refine ⟨fun limit s out hout => ?_, ⟨rfl, rfl⟩, fun b hne => ?_, fun _ _ _ => groupString_hex_length,
    (groupString_of_short (by decide)).trans (by decide), (groupString_of_short (by decide)).trans (by decide)⟩
  · obtain ⟨-, b, hb, rfl⟩ := groupString_eq_some_iff.1 hout
    exact ⟨b, hb, rfl⟩
  · have hpos := List.length_pos_of_ne_nil hne
    intro groups
    refine ⟨runsOf4_length b, ?_, fun j g hg => ?_⟩
    · rw [groupRuns_length]
      omega
    · have hlen := length_of_runsOf4_getElem? hg
      omega

/-! ### The places of the spaces -/

/-- Taking the spaces out of a grouped string gives back the string, if that had none. -/
theorem filter_groupRuns {b : Text} (hb : ∀ c ∈ b, c ≠ spaceChar) :
    (groupRuns b).filter (fun c => c != spaceChar) = b := by
  induction b using groupRuns_induction with
  | short b h => simpa [groupRuns_short h] using hb
  | long a b c d e r ih =>
    simp only [List.forall_mem_cons] at hb ih
    obtain ⟨ha, hb, hc, hd, hrest⟩ := hb
    rw [groupRuns_cons, List.filter_append, ih hrest]
    simp [ha, hb, hc, hd]

/-- A grouped string has a space exactly after each four characters. -/
theorem groupRuns_getElem?_eq_space_iff {b : Text} (hb : ∀ c ∈ b, c ≠ spaceChar) {j : Nat} {c : Byte}
    (hc : (groupRuns b)[j]? = some c) : c = spaceChar ↔ j % 5 = 4 := by
  induction b using groupRuns_induction generalizing j with
  | short b h =>
    rw [groupRuns_short h] at hc
    have hj : j < b.length := (List.getElem?_eq_some_iff.1 hc).1
    exact iff_of_false (hb c (List.mem_of_getElem? hc)) (by omega)
  | long a0 a1 a2 a3 e r ih =>
    simp only [List.forall_mem_cons] at hb ih
    obtain ⟨h0, h1, h2, h3, hrest⟩ := hb
    rw [groupRuns_cons] at hc
    match j with
    | 0 | 1 | 2 | 3 => cases hc; simp [h0, h1, h2, h3]
    | 4 => cases hc; simp
    | j + 5 => rw [ih hrest hc, Nat.add_mod_right]

/-- The last character of a grouped string is the last of the string. -/
theorem getLast?_groupRuns (b : Text) : (groupRuns b).getLast? = b.getLast? := by
  induction b using groupRuns_induction with
  | short b h => rw [groupRuns_short h]
  | long a b c d e r ih => simp [groupRuns_cons, List.getLast?_cons, ih]

theorem ne_space_of_isBinChar {c : Byte} (h : isBinChar c = true) : c ≠ spaceChar := by
  rintro rfl
  cases h

/-- Settles O54: the string GRP groups has no space of its own, so the spaces of the output are those grouping put. -/
theorem groupingOnlyInsertsSpaces : Obligations.GroupingOnlyInsertsSpaces := by
  unfold Obligations.GroupingOnlyInsertsSpaces
  intro limit s out hout
  obtain ⟨-, b, hb, rfl⟩ := groupString_eq_some_iff.1 hout
  have hspace : ∀ c ∈ b, c ≠ spaceChar := fun c hc =>
    ne_space_of_isBinChar (List.all_eq_true.1 (groupSource_all hb) c hc)
  refine ⟨b, hb, filter_groupRuns hspace, fun j c => groupRuns_getElem?_eq_space_iff hspace, fun hlast => ?_⟩
  rw [getLast?_groupRuns] at hlast
  exact hspace _ (List.mem_of_getLast? hlast) rfl

/-! ### The number a hexadecimal input denotes -/

/-- Four bits are the binary digits of the nibble's value. -/
theorem nibble_bits (v : BitVec 4) :
    8 * (v.getLsbD 3).toNat + 4 * (v.getLsbD 2).toNat + 2 * (v.getLsbD 1).toNat + (v.getLsbD 0).toNat = v.toNat := by
  revert v; decide

/-- Reading a digit's four characters in binary is reading the digit in hexadecimal. -/
theorem foldl_nibbleChars (n : Nat) (c : Byte) :
    (nibbleChars c).foldl (fun n c => 2 * n + if c = 0x31 then 1 else 0) n = 16 * n + (hexValue c).toNat := by
  simp only [nibbleChars, List.foldl_cons, List.foldl_nil, binDigit_bitChar, ← nibble_bits (hexValue c)]
  omega

/-- Settles O55: digit by digit, the expansion has four characters and the digit's value. -/
theorem hexExpansionIsItsNumeral : Obligations.HexExpansionIsItsNumeral := by
  unfold Obligations.HexExpansionIsItsNumeral
  intro h hne hall
  have hb := groupSource_hex hne hall
  have hlen := flatMap_nibbleChars_length h
  refine ⟨_, hb, hlen, all_isBinChar_iff.1 (groupSource_all hb), ?_, ?_, fun g => length_of_mem_runsOf4 hlen⟩
  · simp only [List.foldl_flatMap, foldl_nibbleChars]
  · rw [runsOf4_length, hlen]
    omega

end Sys2Proof.Machine

/-! SUPPORT. The four RUN commands: their nine outputs, that they complete on every operand, the lengths of their
grouped strings, and the single commands that give the same values (44_pipeline.md R85 to R88). -/

namespace Sys2Proof.Machine

/-- A RUN command's arm, whatever the operation (R85). -/
theorem exec_run (op : Op) (F : Prec) (s : State) : exec (Instr.run op F) s = .next (runPipeline op F s) := by
  cases op <;> rfl

/-- Settles O24: the arm with the outputs written out, each grouped string a value. -/
theorem runCommandsComplete : Obligations.RunCommandsComplete := by
  unfold Obligations.RunCommandsComplete
  intro F s a b done
  have hrun (op : Op) : exec (Instr.run op F) s = .next (done (arith unitPolicy op F a b)) := by
    rw [exec_run, runPipeline, runOutputs_eq]
    rfl
  exact ⟨hrun .add, hrun .sub, hrun .mul, hrun .div⟩

/-- Settles O25: the issue of a RUN command's word steps to that command's completed state, whose STATUS is that of a
command of kind RUN. -/
theorem runIsTotal : Obligations.RunIsTotal := by
  unfold Obligations.RunIsTotal
  intro s p act op F hhost hcmd
  have hstep := (step_issue_ok hhost (decode_eq_ok_iff.2 hcmd)).trans (exec_run op F _)
  exact ⟨_, hstep, statusDone_run, valid_of_done rfl, err_of_done rfl, kindField_of_done rfl⟩

/-! ### The grouped strings -/

/-- A binString has w characters, a whole number of runs. -/
theorem binString_length_eq_nibbles (F : Format) (x : Pattern F) : (binString F x).length = 4 * (F.w / 4) :=
  (binString_length F x).trans (width_eq_nibbles F)

/-- A binString is cut into w/4 runs. -/
theorem runsOf4_binString_length (F : Format) (x : Pattern F) : (runsOf4 (binString F x)).length = F.w / 4 := by
  rw [runsOf4_length, binString_length_eq_nibbles]
  omega

/-- Grouping a binString puts a space between each two of its w/4 runs. -/
theorem groupRuns_binString_length (F : Format) (x : Pattern F) :
    (groupRuns (binString F x)).length = F.w + F.w / 4 - 1 := by
  rw [groupRuns_length, binString_length]
  cases F <;> rfl

/-- What RUN leaves in TXT[1], TXT[3] or TXT[5] is a grouped binString. -/
theorem exists_binString_of_runOutputs {F : Prec} {a b r : Pattern F.fmt} {g : Text}
    (h : (runOutputs F a b r).txt1 = some g ∨ (runOutputs F a b r).txt3 = some g ∨
      (runOutputs F a b r).txt5 = some g) :
    ∃ x, g = groupRuns (binString F.fmt x) := by
  rw [runOutputs_eq] at h
  obtain h | h | h := h
  · exact ⟨a, (Option.some.inj h).symm⟩
  · exact ⟨b, (Option.some.inj h).symm⟩
  · exact ⟨r, (Option.some.inj h).symm⟩

/-- Settles O56: the length of a binString gives the runs' lengths and the length of the grouped string, and the grouped
registers of RUN hold such strings. -/
theorem runGroupedStrings : Obligations.RunGroupedStrings := by
  unfold Obligations.RunGroupedStrings
  refine ⟨fun F x => ?_, fun F x => ?_, fun op F s t ht g hg => ?_⟩
  · exact ⟨binString_length F.fmt x, all_isBinChar_iff.1 (binString_all F.fmt x)⟩
  · exact ⟨_, groupString_binString _ F x, runsOf4_binString_length F.fmt x,
      fun _ => length_of_mem_runsOf4 (binString_length_eq_nibbles F.fmt x)⟩
  · cases (exec_run op F s).symm.trans ht
    obtain ⟨x, rfl⟩ := exists_binString_of_runOutputs hg
    have hlen := groupRuns_binString_length F.fmt x
    exact ⟨hlen, hlen.trans (by cases F <;> rfl)⟩

/-! ### The single commands -/

/-- The low bits of a result word are the result again (R32). -/
theorem setWidth_resultWord (F : Prec) (x : Pattern F.fmt) : (resultWord F x).setWidth F.fmt.w = x := by
  have hw : F.fmt.w ≤ 32 := by cases F <;> decide
  rw [resultWord, BitVec.setWidth_setWidth_of_le x hw, BitVec.setWidth_eq]

/-- XA with a result copied onto it is that result as an operand. -/
theorem operandXA_of_resultWord {F : Prec} {x : Pattern F.fmt} {s : State} (h : s.ports.xa = resultWord F x) :
    operandXA F s = x := by
  rw [operandXA, h, setWidth_resultWord]

/-- XB with a result copied onto it is that result as an operand. -/
theorem operandXB_of_resultWord {F : Prec} {x : Pattern F.fmt} {s : State} (h : s.ports.xb = resultWord F x) :
    operandXB F s = x := by
  rw [operandXB, h, setWidth_resultWord]

/-- GRP of a binString copied onto SIN completes with its grouped runs (R86). -/
theorem exec_grp_binString {F : Prec} {x : Pattern F.fmt} {s : State} (h : s.ports.sin = binString F.fmt x) :
    exec .grp s = .next (s.complete .grp
      { Response.unwritten with txt0 := some (groupRuns (binString F.fmt x)) }) :=
  execGrp_of_some (h ▸ groupString_binString Config.grpMaxChars F x)

/-- XTR of a result copied onto XA, and GRP of the binary string it gives, from any states. -/
theorem exec_xtr_then_grp {F : Prec} {x : Pattern F.fmt} {u : State} (hu : u.ports.xa = resultWord F x) :
    ∃ v bin, exec (.xtr F) u = .next v ∧ v.resp.txt0 = some (hexString F.fmt x) ∧ v.resp.txt1 = some bin ∧
      ∀ w : State, w.ports.sin = bin → ∃ z, exec .grp w = .next z ∧ z.status = 0x19 ∧
        z.resp.txt0 = some (groupRuns (binString F.fmt x)) ∧ z.resp.txt0.isSome = true := by
  have hx := exec_xtr F u
  rw [operandXA_of_resultWord hu] at hx
  exact ⟨_, _, hx, rfl, rfl, fun w hw => ⟨_, exec_grp_binString hw, statusDone_grp, rfl, rfl⟩⟩

/-- Settles O57: each value of RUN, copied onto a port, is the operand of the next single command, and the strings are
those of XTR and GRP on it. -/
theorem runMatchesSingleCommands : Obligations.RunMatchesSingleCommands := by
  unfold Obligations.RunMatchesSingleCommands
  intro op F s t ht
  cases (exec_run op F s).symm.trans ht
  rw [runPipeline, complete_resp, runOutputs_eq]
  refine ⟨_, _, _, rfl, rfl, rfl, fun u hu => ⟨_, exec_cvt F u, ?_⟩, fun u hu => ⟨_, exec_cvt F u, ?_⟩,
    fun u ha hb => ⟨_, exec_single op F u, ?_⟩, ?_⟩
  · rw [completeNum_resp, hu, operandA64]
  · rw [completeNum_resp, hu, operandB64]
  · rw [completeNum_resp, operandXA_of_resultWord ha, operandXB_of_resultWord hb]
  · simp only [List.forall_mem_cons, List.not_mem_nil, false_implies, implies_true, and_true]
    exact ⟨fun _ => exec_xtr_then_grp, fun _ => exec_xtr_then_grp, fun _ => exec_xtr_then_grp⟩

end Sys2Proof.Machine

/-! SUPPORT. The two steps that run no command: the issue of a reserved word (60_exceptions.md R90) and the idle step
(60_exceptions.md R102; log entry 7). -/

namespace Sys2Proof.Machine

/-- Settles O3: the step of a reserved word raises UnsupportedOperation, whose STATUS byte is 0x03. -/
theorem unsupportedReadsNoOperand : Obligations.UnsupportedReadsNoOperand := by
  unfold Obligations.UnsupportedReadsNoOperand
  intro s p act e h hd
  rw [step_issue_error h hd, State.raise, statusError_unsup]

/-- Settles O10: with the host's list empty, the step takes its idle branch. -/
theorem idleUnitKeepsRegisters : Obligations.IdleUnitKeepsRegisters := by
  unfold Obligations.IdleUnitKeepsRegisters
  intro s h
  rw [step, h]

end Sys2Proof.Machine

/-! SUPPORT. Reset, and the host that keeps to the registers STATUS.KIND names: reads inside and outside KIND, and the
run that nothing stops (70_reset_and_hazards.md R103, R106, R107; 10_state.md R35). -/

namespace Sys2Proof.Machine

open Sys2Proof.Safety

theorem step_reset {s : State} {act : List HostAction} (h : s.host = .reset :: act) :
    step s = .next (State.resetUnit { s with host := act }) := by simp [step, h]

/-- Settles O7: no register but STATUS holds a value after reset, and the step of a reset is resetUnit. -/
theorem resetLeavesRegistersUnwritten : Obligations.ResetLeavesRegistersUnwritten := by
  unfold Obligations.ResetLeavesRegistersUnwritten
  exact ⟨⟨rfl, fun _ hr => readReg_eq_none_of_holdsFor holdsFor_unwritten (Kind.none_writes_of_ne_status hr)⟩,
    fun _ _ => step_reset⟩

/-- The kind that STATUS.KIND codes is unique, so the registers it names are the ones that hold values (R31). -/
theorem readReg_isSome_of_unitInv {s : State} {k : Kind} (hs : UnitInv s) (hk : s.kindField = k.code) (r : RegName) :
    (s.readReg r).isSome = k.writes r := by
  obtain ⟨j, hj, hwritten⟩ := hs.written
  cases Kind.code_injective (hj.symm.trans hk)
  exact hwritten r

/-- Settles O18: a register that KIND does not name is Unwritten, and the read of an Unwritten register faults. -/
theorem readOutsideKindFaults : Obligations.ReadOutsideKindFaults := by
  unfold Obligations.ReadOutsideKindFaults
  intro s k r act hs hk hread hr
  have hsome := readReg_isSome_of_unitInv hs hk r
  exact (hostReadDeliversOrFaults.1 s r act hread).2 (by simpa [hr] using hsome)

theorem kindField_of_zero {s : State} (h : s.status = 0) : s.kindField = Kind.none.code := by
  rw [State.kindField, h]; rfl

/-- The kind after a reserved word is none (R90). -/
theorem kindAfter_of_error {p : Ports} {e : Reserved} (hd : decode p.cmd = .error e) : kindAfter p = .none := by
  simp [kindAfter, hd]

/-- The kind after a command that completes is the command's own (R31). -/
theorem kindAfter_of_completes {p : Ports} {i : Instr} (hd : decode p.cmd = .ok i)
    (hgrp : i = .grp → (groupString Config.grpMaxChars p.sin).isSome = true) : kindAfter p = kindOf i := by
  rw [kindAfter, hd]
  cases i with
  | grp => exact if_pos (hgrp rfl)
  | add | sub | mul | div | cvt | xtr | runAdd | runSub | runMul | runDiv => rfl

/-- The kind after a malformed GRP is none (R91). -/
theorem kindAfter_of_malformed {p : Ports} (hd : decode p.cmd = .ok .grp)
    (hnone : groupString Config.grpMaxChars p.sin = none) : kindAfter p = .none := by
  simp [kindAfter, hd, hnone]

/-- An issue steps on to the rest of the host's interactions, with the KIND that `kindAfter` foretells. -/
theorem step_issue_kindAfter {s : State} {p : Ports} {act : List HostAction} (h : s.host = .issue p :: act) :
    ∃ t, step s = .next t ∧ t.host = act ∧ t.kindField = (kindAfter p).code := by
  cases hd : decode p.cmd with
  | error e => exact ⟨_, step_issue_error h hd, rfl, by rw [kindAfter_of_error hd]; exact kindField_of_error rfl⟩
  | ok i =>
    rw [step_issue_ok h hd]
    obtain ⟨r, he, -, hgrp⟩ | ⟨rfl, hnone, he⟩ := exec_cases i { s with ports := p, host := act }
    · exact ⟨_, he, rfl, by rw [kindAfter_of_completes hd hgrp]; exact kindField_of_done rfl⟩
    · exact ⟨_, he, rfl, by rw [kindAfter_of_malformed hd hnone]; exact kindField_of_error rfl⟩

/-- The unit meets its invariant, and its host's coming interactions keep the duties of R106 under the KIND that STATUS
shows. -/
def ServesDutifulHost (s : State) : Prop := UnitInv s ∧ ∃ k : Kind, s.kindField = k.code ∧ Dutiful k s.host

/-- A dutiful host's next interaction steps on, to a state whose KIND the rest of its interactions is dutiful for. -/
theorem step_of_dutiful {s : State} {k : Kind} (hs : UnitInv s) (hk : s.kindField = k.code)
    (hduty : Dutiful k s.host) : ∃ t, step s = .next t ∧ ∃ j : Kind, t.kindField = j.code ∧ Dutiful j t.host := by
  match hhost : s.host with
  | [] => exact ⟨s, idleUnitKeepsRegisters s hhost, k, hk, hduty⟩
  | .issue p :: act =>
    rw [hhost, Dutiful] at hduty
    obtain ⟨t, ht, rfl, hkind⟩ := step_issue_kindAfter hhost
    exact ⟨t, ht, _, hkind, hduty⟩
  | .read r :: act =>
    rw [hhost, Dutiful] at hduty
    obtain ⟨hwrites, hrest⟩ := hduty
    obtain ⟨v, hv⟩ := Option.isSome_iff_exists.1 ((readReg_isSome_of_unitInv hs hk r).trans hwrites)
    exact ⟨_, (hostReadDeliversOrFaults.1 s r act hhost).1 v hv, k, hk, hrest⟩
  | .reset :: act =>
    rw [hhost, Dutiful] at hduty
    exact ⟨_, step_reset hhost, .none, kindField_of_zero rfl, hduty⟩

/-- A unit that serves a dutiful host steps on and still serves it. -/
theorem step_servesDutifulHost {s : State} (hs : ServesDutifulHost s) :
    ∃ t, step s = .next t ∧ ServesDutifulHost t := by
  obtain ⟨hinv, k, hk, hduty⟩ := hs
  obtain ⟨t, ht, hserves⟩ := step_of_dutiful hinv hk hduty
  exact ⟨t, ht, everyStepKeepsInvariant s t hinv ht, hserves⟩

theorem run_succ_of_next {M : Host.Core} {s t : M.State} (h : M.step s = .next t) (n : Nat) :
    M.run (n + 1) s = M.run n t := by rw [Host.Core.run, h]

/-- A predicate from which every step goes on, and which every step keeps, makes a run safe. -/
theorem safe_of_progress {Inv : State → Prop} (hstep : ∀ s, Inv s → ∃ t, step s = .next t ∧ Inv t) {s : State}
    (hs : Inv s) : Safe s := by
  intro n
  induction n generalizing s with
  | zero => exact ⟨s, rfl⟩
  | succ n ih =>
    obtain ⟨t, ht, hinv⟩ := hstep s hs
    rw [run_succ_of_next (M := Sys2Proof.core) ht]
    exact ih hinv

/-- Settles O17: serving a dutiful host is an invariant that never stops. -/
theorem dutifulHostIsNeverStopped : Obligations.DutifulHostIsNeverStopped := by
  unfold Obligations.DutifulHostIsNeverStopped
  exact fun _ k hs hk hduty => safe_of_progress (fun _ => step_servesDutifulHost) ⟨hs, k, hk, hduty⟩

end Sys2Proof.Machine
